-- ==== Sys2Proof/Word.lean ====
section
/-! DEFINITION. The word types of the codec core (R9, R10): a byte and the 16-bit copy word. -/

namespace Sys2Proof

/-- A byte, a number 0..255 (R9). -/
abbrev Byte := BitVec 8

/-- A 16-bit word (R10). -/
abbrev Word := BitVec 16

end Sys2Proof
end

