-- ==== Sys2Proof/Config.lean ====
section
/-! DEFINITION. What is fixed for the machine: the constants of R6, the open parameters of R7, the names of the engines and
predictors, and the free values: opaque constants without a body that stand for every value the spec leaves unspecified. -/

namespace Sys2Proof

/-- The three engines (R1). -/
inductive Engine
  | flt
  | enc
  | dec
  deriving DecidableEq, Repr

/-- The three predictors of the filter (R121, R122, R123). -/
inductive Pred
  | a
  | b
  | c
  deriving DecidableEq, Repr, Inhabited

/-- The open parameters of R7. They are held in `State.params`, which no step changes (log 1). -/
structure Params where
  idA : Byte
  idB : Byte
  idC : Byte
  reserved0 : Byte
  reserved1 : Byte
  deriving DecidableEq, Repr

/-- The constraint R7 puts on the parameters: the three ids are pairwise distinct. -/
abbrev Params.Distinct (p : Params) : Prop :=
  p.idA ≠ p.idB ∧ p.idA ≠ p.idC ∧ p.idB ≠ p.idC

namespace Config

/-- `PIXEL_SIZE`, bytes per pixel (R6). -/
abbrev pixelSize : Nat := 3

/-- `WINDOW`, the largest copy offset (R6). -/
abbrev window : Nat := 4095

/-- `MIN_MATCH`, the smallest copy length (R6). -/
abbrev minMatch : Nat := 4

/-- `MAX_MATCH`, the largest copy length (R6). -/
abbrev maxMatch : Nat := 2051

/-- `MAX_LITERAL`, the largest literal run (R6). -/
abbrev maxLiteral : Nat := 255

/-- `TAGS_PER_CTRL`, tag bits per control byte (R6). -/
abbrev tagsPerCtrl : Nat := 8

/-- `SHORT_MAX_COUNT`, the largest count of the short copy form (R6). -/
abbrev shortMaxCount : Nat := 7

/-- `SUBHEADER_LEN`, the bytes of the FilteredStream's sub-header (R6). -/
abbrev subheaderLen : Nat := 8

/-- `BITS_PER_PIXEL`, the sub-header's field (R6, decision D3). -/
abbrev bitsPerPixel : Word := 24

/-- `CTRL_SENTINEL_INIT`, the tag register at the start of a command (R6). -/
abbrev ctrlSentinelInit : BitVec 9 := 2

/-- `CTRL_RELOAD_BIT`, set above a freshly read control byte (R6). -/
abbrev ctrlReloadBit : BitVec 9 := 0x100

/-- `MAX_LEN`, the upper bound of `N`, `M` and `L` (R7, decision D13). `MAX_DIM` = 65535 is the range of the 16-bit
registers `FLT.W` and `FLT.H` themselves (R7, decision D7). -/
abbrev maxLen : Nat := 2 ^ 31 - 1

/-- The defaults R7 states for the open parameters. PRESUMED: the three ids are the spec's "from general knowledge, not in
source" (log 1). -/
def defaultParams : Params :=
  { idA := 1, idB := 2, idC := 4, reserved0 := 0, reserved1 := 0 }

/-- FREE VALUE (log 3): the `k`-th unspecified number an engine meets. No body: nothing constrains it. -/
opaque freeNat : Engine → Nat → Nat

/-- FREE VALUE (log 3): the `k`-th unspecified byte sequence an engine meets. -/
opaque freeBytes : Engine → Nat → List Byte

/-- FREE VALUE (log 3): the `k`-th unspecified predictor name in `FLT.best`. -/
opaque freePred : Nat → Pred

end Config

end Sys2Proof
end

