-- ==== Sys2Proof/Syntax.lean ====
section
/-! DEFINITION. The instructions: one constructor per row of the opcode table (R98). -/

namespace Sys2Proof

/-- The opcode table, in its order. Stream blocks and predictor ids carry the fields of their encodings (R91 to R95, R102);
`FILTER_ROW` carries the operands of its invocation (R129); the other commands take theirs from the argument registers
(R24, R27, R30). -/
inductive Instr
  /-- `CTRL`: a control byte, eight tags, bit `j` the tag of the `j`-th body (R91). -/
  | ctrl (tags : Byte)
  /-- `LITERAL`: the raw bytes; the count byte is their number (R92). -/
  | literal (payload : List Byte)
  /-- `COPY_SHORT`: offset and 3-bit count (R94). -/
  | copyShort (offset : BitVec 12) (c : BitVec 3)
  /-- `COPY_LONG`: offset, the count's high 3 bits and the third byte (R95). -/
  | copyLong (offset : BitVec 12) (h : BitVec 3) (ext : Byte)
  /-- `PRED_A` (R121). -/
  | predA
  /-- `PRED_B` (R122). -/
  | predB
  /-- `PRED_C` (R123). -/
  | predC
  /-- `FILTER_ROW`: image width in pixels and row index; the two rows of samples stand in `FLT.PIX` (R120, R129). -/
  | filterRow (w r : BitVec 16)
  /-- `FILTER_IMAGE` on `FLT.W`, `FLT.H` (R131). -/
  | filterImage
  /-- `COMPRESS` on `ENC.N` (R158). -/
  | compress
  /-- `DECOMPRESS` on `DEC.M`, `DEC.L` (R187). -/
  | decompress
  deriving DecidableEq, Repr

/-- The four commands a host can issue (R3). -/
inductive Command
  | filterRow (w r : BitVec 16)
  | filterImage
  | compress
  | decompress
  deriving DecidableEq, Repr

/-- A command as an instruction of the table. -/
def Command.instr : Command → Instr
  | .filterRow w r => .filterRow w r
  | .filterImage => .filterImage
  | .compress => .compress
  | .decompress => .decompress

/-- The predictor of a predictor-id row. -/
def Pred.instr : Pred → Instr
  | .a => .predA
  | .b => .predB
  | .c => .predC

end Sys2Proof
end

