-- ==== Sys2Proof/WellFormed.lean ====
section
/-! DEFINITION. Which instruction terms have an encoding (well formed), and which of those the compressor can produce
(canonical, R101). -/

namespace Sys2Proof

/-- An instruction that can be written down: a literal's count fits its count byte (R92), and `FILTER_ROW` has a width of
at least one pixel (R129, the table's range 1..65535). Every other term is well formed, offset 0 and short counts in the
long form included: they decode (R98, R99). -/
def Instr.wf : Instr → Bool
  | .ctrl _ => true
  | .literal payload => decide (payload.length ≤ Config.maxLiteral)
  | .copyShort _ _ => true
  | .copyLong _ _ _ => true
  | .predA => true
  | .predB => true
  | .predC => true
  | .filterRow w _ => decide (w ≠ 0)
  | .filterImage => true
  | .compress => true
  | .decompress => true

/-- The block encodings `ENC` guarantees (R101): literals of 1..255 bytes, offsets of at least 1, the long form only for
lengths above 11. A non-canonical block is executed all the same (R99). -/
def Instr.canonical : Instr → Bool
  | .ctrl _ => true
  | .literal payload => decide (1 ≤ payload.length ∧ payload.length ≤ Config.maxLiteral)
  | .copyShort offset _ => decide (offset ≠ 0)
  | .copyLong offset h ext => decide (offset ≠ 0 ∧ Config.shortMaxCount < h.toNat * 256 + ext.toNat)
  | .predA => true
  | .predB => true
  | .predC => true
  | .filterRow w _ => decide (w ≠ 0)
  | .filterImage => true
  | .compress => true
  | .decompress => true

end Sys2Proof
end

