-- ==== Sys2Proof/Decode.lean ====
section
/-! DEFINITION. Decoding and encoding: byte order (R62), the fields of the copy word (R93), a decoder that is total on any
bytes, and the encoder written from the same tables. Which table row applies is decided by where the bytes stand and by the
tag (R97), so the decoder is given that place. -/

namespace Sys2Proof

/-- The little-endian word of two stream bytes (R10, R62). -/
def wordOfBytes (lo hi : Byte) : Word := lo.setWidth 16 ||| hi.setWidth 16 <<< 8

/-- The byte a word has at the lower address (R10). -/
def loByte (w : Word) : Byte := w.setWidth 8

/-- The byte a word has at the next address (R10). -/
def hiByte (w : Word) : Byte := (w >>> 8).setWidth 8

/-- `offset = word >> 4`, not biased (R93, R96). -/
def offsetField (w : Word) : BitVec 12 := (w >>> 4).setWidth 12

/-- `S = word[3]`: 1 selects the short form (R93). -/
def formShort (w : Word) : Bool := w.getLsbD 3

/-- `c = word & 7` (R93). -/
def countField (w : Word) : BitVec 3 := w.setWidth 3

/-- The copy word from its fields (R93): `(offset << 4) | 0x8 | c` in the short form, `(offset << 4) | c` in the long (R94, R95). -/
def copyWord (offset : BitVec 12) (short : Bool) (c : BitVec 3) : Word :=
  offset.setWidth 16 <<< 4 ||| (if short then 8 else 0) ||| c.setWidth 16

/-- Where bytes stand: a control byte is due, a body after tag 0 or tag 1 (R97), or a byte of the control array of a
FilteredStream (R102). -/
inductive Slot
  | control
  | literalBody
  | copyBody
  | predictorId
  deriving DecidableEq, Repr

/-- Why bytes do not decode. A stream has no undecodable pattern, only missing bytes (R98); a control-array byte may be none
of the three ids (R102). -/
inductive DecodeError
  /-- The instruction needs more bytes than there are. -/
  | truncated
  /-- The byte is no predictor id. -/
  | notPredictorId (b : Byte)
  deriving DecidableEq, Repr

/-- The body slot a tag selects: 1 = Copy, 0 = Literal (R91, R97). -/
def bodySlot (tag : Bool) : Slot := if tag then .copyBody else .literalBody

/-- The predictor a control-array byte names (R102). -/
def predOfId (p : Params) (b : Byte) : Option Pred :=
  if b = p.idA then some .a
  else if b = p.idB then some .b
  else if b = p.idC then some .c
  else none

/-- The id of a predictor (R102). -/
def idOfPred (p : Params) : Pred → Byte
  | .a => p.idA
  | .b => p.idB
  | .c => p.idC

/-- One copy body: the word, and in the long form the third byte (R93 to R97). -/
def decodeCopy : List Byte → Except DecodeError (Instr × List Byte)
  | lo :: hi :: rest =>
    let w := wordOfBytes lo hi
    if formShort w then .ok (.copyShort (offsetField w) (countField w), rest)
    else
      match rest with
      | ext :: rest' => .ok (.copyLong (offsetField w) (countField w) ext, rest')
      | [] => .error .truncated
  | _ => .error .truncated

/-- One literal body: the count byte and that many raw bytes (R92). -/
def decodeLiteral : List Byte → Except DecodeError (Instr × List Byte)
  | n :: rest =>
    if rest.length < n.toNat then .error .truncated
    else .ok (.literal (rest.take n.toNat), rest.drop n.toNat)
  | [] => .error .truncated

/-- The decoder (R97, R98): the instruction that stands at the head of the bytes, and the bytes after it. -/
def decode (p : Params) (slot : Slot) (bytes : List Byte) : Except DecodeError (Instr × List Byte) :=
  match slot with
  | .control =>
    match bytes with
    | b :: rest => .ok (.ctrl b, rest)
    | [] => .error .truncated
  | .literalBody => decodeLiteral bytes
  | .copyBody => decodeCopy bytes
  | .predictorId =>
    match bytes with
    | b :: rest =>
      match predOfId p b with
      | some x => .ok (x.instr, rest)
      | none => .error (.notPredictorId b)
    | [] => .error .truncated

/-- The bytes of an instruction (R91 to R95, R102); a command has none (R98). -/
def encode (p : Params) : Instr → List Byte
  | .ctrl tags => [tags]
  | .literal payload => BitVec.ofNat 8 payload.length :: payload
  | .copyShort offset c => [loByte (copyWord offset true c), hiByte (copyWord offset true c)]
  | .copyLong offset h ext => [loByte (copyWord offset false h), hiByte (copyWord offset false h), ext]
  | .predA => [p.idA]
  | .predB => [p.idB]
  | .predC => [p.idC]
  | .filterRow _ _ => []
  | .filterImage => []
  | .compress => []
  | .decompress => []

/-- Where an instruction's bytes stand; a command has no bytes (R98). -/
def Instr.slot : Instr → Option Slot
  | .ctrl _ => some .control
  | .literal _ => some .literalBody
  | .copyShort _ _ => some .copyBody
  | .copyLong _ _ _ => some .copyBody
  | .predA => some .predictorId
  | .predB => some .predictorId
  | .predC => some .predictorId
  | .filterRow _ _ => none
  | .filterImage => none
  | .compress => none
  | .decompress => none

/-- How many bytes an instruction takes (R97). -/
def Instr.size : Instr → Nat
  | .ctrl _ => 1
  | .literal payload => 1 + payload.length
  | .copyShort _ _ => 2
  | .copyLong _ _ _ => 3
  | .predA => 1
  | .predB => 1
  | .predC => 1
  | .filterRow _ _ => 0
  | .filterImage => 0
  | .compress => 0
  | .decompress => 0

/-- The first `k` bytes of a number, the least significant first. -/
def leBytes : Nat → Nat → List Byte
  | 0, _ => []
  | k + 1, w => BitVec.ofNat 8 w :: leBytes k (w / 256)

/-- The place the host's table words are read at (log 7). The table's bits alone do not say whether a byte is a predictor id,
a control byte or a literal's count, so a byte that is one of the default ids is read as that id, any other byte as a control
byte, and two or more bytes as a copy body. -/
def tableSlot (nbits w : Nat) : Slot :=
  if 8 < nbits then .copyBody
  else if (predOfId Config.defaultParams (BitVec.ofNat 8 w)).isSome then .predictorId
  else .control

/-- The bytes of a table word, each bit above `nbits` zero, as long as the longest copy body. -/
def tableBytes (nbits w : Nat) : List Byte := leBytes (max 3 ((nbits + 7) / 8)) (w % 2 ^ nbits)

/-- The instruction the decoder reads from a table word. A row of no bits is a command; the four commands are not told apart
by bits and `DECOMPRESS` stands for them (log 7). -/
def decodeTableWord (nbits w : Nat) : Option Instr :=
  if nbits = 0 then some .decompress
  else
    match decode Config.defaultParams (tableSlot nbits w) (tableBytes nbits w) with
    | .ok (i, _) => some i
    | .error _ => none

end Sys2Proof
end

