-- ==== Sys2Proof/Machine/State.lean ====
section
/-! DEFINITION. The machine's state as plain data: the three engines with their registers and spaces (R20 to R36, R60), the
open parameters (R7) and the host's pending actions; the reasons a step can stop; the state after reset (R36). -/

namespace Sys2Proof.Machine

open Sys2Proof

/-- One address space (R60): `size` bytes addressed from 0. `cells` lists the bytes that hold a value, addresses strictly
rising; an address below `size` that is not listed holds no value (log 4), an address from `size` on does not exist. -/
structure Memory where
  size : Nat
  cells : List Host.Cell
  deriving DecidableEq, Repr

/-- The status registers each engine has (R22). `ENG.start` is a write strobe and holds nothing (log 18). `outLen` is the
number of bytes written as a natural number, since R131's length of the largest images passes R22's 32 bits (log 12). -/
structure Status where
  busy : Bool
  done : Bool
  fault : Bool
  faultCode : BitVec 3
  outLen : Nat
  deriving DecidableEq, Repr

/-- The next line of `FILTER_IMAGE`'s row loop: a predictor of R129, or recording the row (R131). The model's own field
(log 10). -/
inductive FltPhase
  | predictor (x : Pred)
  | record
  deriving DecidableEq, Repr

/-- The filter engine: arguments (R24), spaces (R60), working registers (R25), row results (R26). -/
structure Flt where
  st : Status
  w : BitVec 16
  h : BitVec 16
  pix : Memory
  fs : Memory
  row : Nat
  best : Pred
  bestCost : Nat
  cost : Nat
  /-- The candidate residual row, which R25 lets an implementation buffer (log 10). -/
  cand : List Byte
  id : Byte
  res : List Byte
  phase : FltPhase
  /-- How many free values have been drawn (log 3). -/
  fresh : Nat
  deriving DecidableEq, Repr

/-- The compressor: argument (R27), spaces (R60), working registers (R28), deferred-write queue (R29). -/
structure Enc where
  st : Status
  n : Nat
  inp : Memory
  out : Memory
  src : Nat
  run : Nat
  acc : Byte
  nq : Nat
  q : List Byte
  wp : Nat
  bestLen : Nat
  bestOff : Nat
  /-- How many free values have been drawn (log 3). -/
  fresh : Nat
  deriving DecidableEq, Repr

/-- Where the decompressor stands in `STEP` (R186): at the loop test, or with a control byte just read and its first body
due. The model's own field (log 13). -/
inductive DecPhase
  | loop
  | body
  deriving DecidableEq, Repr

/-- The decompressor: arguments (R30), spaces (R60), registers (R31), temporaries (R32). -/
structure Dec where
  st : Status
  m : Nat
  l : Nat
  inp : Memory
  out : Memory
  ip : Nat
  dst : Nat
  ctrl : BitVec 9
  word : Word
  count : BitVec 11
  offset : BitVec 12
  length : BitVec 12
  phase : DecPhase
  /-- How many free values have been drawn (log 3). -/
  fresh : Nat
  deriving DecidableEq, Repr

/-- What a host can do to the machine (R220, R240, R243, R252), one entry an action. -/
inductive HostOp
  /-- Place the whole input in an engine's input space (R243 (1)). -/
  | fill (e : Engine) (bytes : List Byte)
  /-- Write `FLT.W`, `FLT.H` (R24). -/
  | argsFlt (w h : BitVec 16)
  /-- Write `ENC.N` (R27). -/
  | argsEnc (n : Nat)
  /-- Write `DEC.M`, `DEC.L` (R30). -/
  | argsDec (m l : Nat)
  /-- Write an engine's `start` (R22): the command then runs move by move. -/
  | start (e : Engine)
  /-- Issue a command as one transaction, a function from inputs to a result (R22's last paragraph, decision D1). -/
  | invoke (c : Command)
  /-- Leave the machine alone while an engine makes one move (log 6). -/
  | move (e : Engine)
  /-- The engine's reset input (R240). -/
  | reset (e : Engine)
  /-- Hand one command's output to another engine as its input (R2, R21; log 17). -/
  | handOver (from_ to_ : Engine)
  deriving DecidableEq, Repr

/-- The whole machine. The engines share no state (R21). -/
structure State where
  params : Params
  flt : Flt
  enc : Enc
  dec : Dec
  host : List HostOp
  deriving DecidableEq, Repr

/-- Why the machine stops without a next state, other than by a refusal. The faults of R210 are none of these: they are next
states (R214). -/
inductive Fault
  /-- An access at or beyond the length of a space: no such address (R60, R12). Raised by every read and write of a space.
  Safe: the machine stops where the spec describes no access. -/
  | outsideSpace
  /-- A read of a byte nothing has written (R36: contents unspecified; log 4). Raised by every read of a space. Safe: the
  machine stops where the spec gives no value. -/
  | unwrittenByte
  deriving DecidableEq, Repr

/-- Why the model gives no meaning. -/
inductive Refusal
  /-- The instruction has no meaning in the model yet. Raised by `exec`'s arms only. Safe. -/
  | notModelled (mnemonic : String)
  /-- `start` written, or a command issued, while the engine is busy (R252, U10). Raised by the four commands. Safe. -/
  | startWhileBusy
  /-- A command's `require` is false (R14, U3; log 16). Raised by the commands. Safe. -/
  | contract
  /-- Predictor B or C on row 0, where it is not available (R122, R123 "requires r > 0"; log 24). Raised by `PRED_B`,
  `PRED_C`. Safe. -/
  | predictorUnavailable
  /-- The host writes a space or an argument register of a busy engine (R252, U10). Raised by the host's actions. Safe. -/
  | hostAccessWhileBusy
  /-- The host reads the output of an engine that is not done (R70, R252, U1). Raised by `handOver`. Safe. -/
  | outputNotReady
  /-- An instruction reached an engine's sequencer that the engine never fetches. Raised by no run: a sequencer fetches only
  its own instructions. Safe. -/
  | notOfThisEngine
  deriving DecidableEq, Repr

/-- The status registers after reset (R36). `out_len` is unspecified there: DESIGN CHOICE 0 (log 2). -/
def Status.reset : Status :=
  { busy := false, done := false, fault := false, faultCode := 0, outLen := 0 }

/-- A space with nothing written in it. -/
def Memory.empty : Memory := { size := 0, cells := [] }

/-- `FLT` after reset (R36); registers other than the status: DESIGN CHOICE (log 2). -/
def Flt.reset : Flt :=
  { st := Status.reset, w := 0, h := 0, pix := Memory.empty, fs := Memory.empty, row := 0, best := .a, bestCost := 0,
    cost := 0, cand := [], id := 0, res := [], phase := .predictor .a, fresh := 0 }

/-- `ENC` after reset (R36); registers other than the status: DESIGN CHOICE (log 2). -/
def Enc.reset : Enc :=
  { st := Status.reset, n := 0, inp := Memory.empty, out := Memory.empty, src := 0, run := 0, acc := 0, nq := 0, q := [],
    wp := 0, bestLen := 0, bestOff := 0, fresh := 0 }

/-- `DEC` after reset (R36); registers other than the status: DESIGN CHOICE (log 2), the tag register at the value R35 gives
it at start. -/
def Dec.reset : Dec :=
  { st := Status.reset, m := 0, l := 0, inp := Memory.empty, out := Memory.empty, ip := 0, dst := 0,
    ctrl := Config.ctrlSentinelInit, word := 0, count := 0, offset := 0, length := 0, phase := .loop, fresh := 0 }

/-- The machine right after reset (R36). -/
def State.reset : State :=
  { params := Config.defaultParams, flt := Flt.reset, enc := Enc.reset, dec := Dec.reset, host := [] }

end Sys2Proof.Machine
end

