-- ==== Sys2Proof/Machine/Ops.lean ====
section
/-! DEFINITION. The named operations: results of a move and how they are chained, the spaces (R12, R60), the status registers
(R22), what `start` does to each engine (R35, R241), what `raise` does (R214), how a command ends (R251) and the hardware
reset of an engine (R240). There is no return from a fault (R219): only `start` or reset clears one. -/

namespace Sys2Proof.Machine

open Sys2Proof

/-- What a move of an engine, an instruction or a step answers. -/
abbrev Result (α : Type) := Host.Outcome α Fault Refusal

/-- Chain two moves; a fault or a refusal ends the chain. -/
def andThen {α β : Type} (r : Result α) (f : α → Result β) : Result β :=
  match r with
  | .next a => f a
  | .fault x => .fault x
  | .refused x => .refused x

/-- Chain an access of a space into a move. -/
def access {α β : Type} (r : Except Fault α) (f : α → Result β) : Result β :=
  match r with
  | .ok a => f a
  | .error x => .fault x

/-- A move of `FLT` as a move of the machine: nothing else changes (R21). -/
def onFlt (r : Result Flt) (s : State) : Result State := andThen r fun f => .next { s with flt := f }

/-- A move of `ENC` as a move of the machine. -/
def onEnc (r : Result Enc) (s : State) : Result State := andThen r fun e => .next { s with enc := e }

/-- A move of `DEC` as a move of the machine. -/
def onDec (r : Result Dec) (s : State) : Result State := andThen r fun d => .next { s with dec := d }

/-! ### Spaces -/

/-- The byte listed at an address. -/
def cellsRead : List Host.Cell → Nat → Option Byte
  | [], _ => none
  | (b, v) :: cs, a => if a = b then some v else cellsRead cs a

/-- List a byte at an address, addresses staying in rising order. -/
def cellsWrite : List Host.Cell → Nat → Byte → List Host.Cell
  | [], a, v => [(a, v)]
  | (b, u) :: cs, a, v =>
    if a < b then (a, v) :: (b, u) :: cs
    else if a = b then (a, v) :: cs
    else (b, u) :: cellsWrite cs a v

/-- Addresses strictly rising, all from `lo` on and below `hi`. -/
def cellsWf (hi : Nat) : Nat → List Host.Cell → Bool
  | _, [] => true
  | lo, (b, _) :: cs => decide (lo ≤ b) && (decide (b < hi) && cellsWf hi (b + 1) cs)

/-- The canonical form of a space: addresses strictly rising and below its size. An unlisted address has no value, so no
entry can equal what an unlisted address reads as. -/
def Memory.wf (m : Memory) : Bool := cellsWf m.size 0 m.cells

/-- `MemRead(S, a, 1)` (R12). -/
def Memory.read (m : Memory) (a : Nat) : Except Fault Byte :=
  if a < m.size then
    match cellsRead m.cells a with
    | some b => .ok b
    | none => .error .unwrittenByte
  else .error .outsideSpace

/-- `MemWrite(S, a, 1, v)` (R12). -/
def Memory.write (m : Memory) (a : Nat) (v : Byte) : Except Fault Memory :=
  if a < m.size then .ok { m with cells := cellsWrite m.cells a v } else .error .outsideSpace

/-- `S[a..a+k)`, read in ascending order (R12). -/
def Memory.readRange (m : Memory) : Nat → Nat → Except Fault (List Byte)
  | 0, _ => .ok []
  | k + 1, a =>
    match m.read a with
    | .error x => .error x
    | .ok b =>
      match m.readRange k (a + 1) with
      | .error x => .error x
      | .ok bs => .ok (b :: bs)

/-- Bytes written one after another from an address on, ascending. -/
def Memory.writeBytes (m : Memory) : List Byte → Nat → Except Fault Memory
  | [], _ => .ok m
  | b :: bs, a =>
    match m.write a b with
    | .error x => .error x
    | .ok m' => m'.writeBytes bs (a + 1)

/-- The bytes a reader meets from an address on: at most `k`, ending before the first that has no value. -/
def Memory.stream (m : Memory) : Nat → Nat → List Byte
  | 0, _ => []
  | k + 1, a =>
    match m.read a with
    | .error _ => []
    | .ok b => b :: m.stream k (a + 1)

/-- Bytes listed from an address on. -/
def cellsOf : Nat → List Byte → List Host.Cell
  | _, [] => []
  | a, b :: bs => (a, b) :: cellsOf (a + 1) bs

/-- A space that holds exactly these bytes. -/
def Memory.ofBytes (bytes : List Byte) : Memory := { size := bytes.length, cells := cellsOf 0 bytes }

/-- A space of `k` bytes none of which has a value (R75; log 4). -/
def Memory.alloc (k : Nat) : Memory := { size := k, cells := [] }

/-- The source's copy loop (R185): `k` bytes from `src` to `dst`, strictly ascending, each read seeing all earlier writes
(R73, R244). -/
def Memory.copyBytes (m : Memory) : Nat → Nat → Nat → Except Fault Memory
  | 0, _, _ => .ok m
  | k + 1, src, dst =>
    match m.read src with
    | .error x => .error x
    | .ok b =>
      match m.write dst b with
      | .error x => .error x
      | .ok m' => m'.copyBytes k (src + 1) (dst + 1)

/-! ### Status registers -/

/-- The causes of R210. -/
inductive Cause
  | decInputExhausted
  | decCopySourceRange
  | decCopyDestRange
  | decLiteralDestRange
  | encLiteralLength
  | encCopyRange
  deriving DecidableEq, Repr

/-- The codes of R210 (decision D18). -/
def faultCodeOf : Cause → BitVec 3
  | .decInputExhausted => 1
  | .decCopySourceRange => 2
  | .decCopyDestRange => 3
  | .decLiteralDestRange => 4
  | .encLiteralLength => 5
  | .encCopyRange => 6

/-- An unspecified `out_len`: any value of its 32 bits (R22; log 3). -/
def outLenFree (free : Nat) : Nat := free % 2 ^ 32

/-- The status registers from `start` on (R22, R35); `out_len` is unspecified until `done`. -/
def statusStarted (free : Nat) : Status :=
  { busy := true, done := false, fault := false, faultCode := 0, outLen := outLenFree free }

/-- The status registers of a command that ended well, having written this many bytes (R22, R251; log 12). -/
def statusDone (count : Nat) : Status :=
  { busy := false, done := true, fault := false, faultCode := 0, outLen := count }

/-- The status registers after `raise` (R214): `busy <- 0`, `fault <- 1`, `fault_code <- code`, `done` 0, `out_len`
unspecified. The one place where a fault of R210 is taken. -/
def statusRaised (c : Cause) (free : Nat) : Status :=
  { busy := false, done := false, fault := true, faultCode := faultCodeOf c, outLen := outLenFree free }

/-- The status registers after the reset input (R240): all cleared, `out_len` unspecified. -/
def statusReset (free : Nat) : Status :=
  { busy := false, done := false, fault := false, faultCode := 0, outLen := outLenFree free }

/-! ### FLT: start, end, reset -/

/-- The `k`-th free number of `FLT` from here (log 3). -/
def fltFree (f : Flt) (k : Nat) : Nat := Config.freeNat .flt (f.fresh + k)

/-- `FLT` with every working register and row result unspecified (R35, U2). -/
def fltScramble (f : Flt) : Flt :=
  { f with
    row := fltFree f 0, best := Config.freePred f.fresh, bestCost := fltFree f 1, cost := fltFree f 2,
    cand := Config.freeBytes .flt f.fresh, id := BitVec.ofNat 8 (fltFree f 3), res := Config.freeBytes .flt (f.fresh + 1),
    phase := .predictor .a, fresh := f.fresh + 5 }

/-- `stride = FLT.W × 3` (R24). -/
def fltStride (f : Flt) : Nat := f.w.toNat * Config.pixelSize

/-- The length of the FilteredStream (R67). -/
def fltLength (f : Flt) : Nat := Config.subheaderLen + f.h.toNat + f.h.toNat * fltStride f

/-- The per-call initialisation of `FILTER_IMAGE` (R35, R241): row 0, the output space allocated (R75), all else unspecified. -/
def fltBegin (f : Flt) : Flt :=
  { fltScramble f with st := statusStarted (fltFree f 4), row := 0, fs := Memory.alloc (fltLength f) }

/-- `FILTER_IMAGE` ends well with `out_len = 8 + H + H × stride` (R131, R251). -/
def fltFinish (f : Flt) : Flt := { fltScramble f with st := statusDone (fltLength f) }

/-- The reset input of `FLT` (R240): status cleared, all else unspecified, the command abandoned. -/
def fltReset (f : Flt) : Flt :=
  { fltScramble f with
    st := statusReset (fltFree f 4), w := BitVec.ofNat 16 (fltFree f 5), h := BitVec.ofNat 16 (fltFree f 6),
    pix := Memory.alloc f.pix.size, fs := Memory.alloc f.fs.size, fresh := f.fresh + 7 }

/-! ### ENC: start, end, fault, reset -/

/-- The `k`-th free number of `ENC` from here (log 3). -/
def encFree (e : Enc) (k : Nat) : Nat := Config.freeNat .enc (e.fresh + k)

/-- `ENC` with every working register unspecified (R35, U2). -/
def encScramble (e : Enc) : Enc :=
  { e with
    src := encFree e 0, run := encFree e 1, acc := BitVec.ofNat 8 (encFree e 2), nq := encFree e 3,
    q := Config.freeBytes .enc e.fresh, wp := encFree e 4, bestLen := encFree e 5, bestOff := encFree e 6,
    fresh := e.fresh + 8 }

/-- The capacity the host gives `ENC.OUT`: R74's "safe capacity" (log 14). -/
def encCapacity (n : Nat) : Nat := 2 * n + 16

/-- The per-call initialisation of `COMPRESS` (R35, R158, R241). -/
def encBegin (e : Enc) : Enc :=
  { encScramble e with
    st := statusStarted (encFree e 7), src := 0, acc := 0, nq := 0, q := [], wp := 0,
    out := Memory.alloc (encCapacity e.n) }

/-- `COMPRESS` ends well with `out_len = wp` (R158, R251). -/
def encFinish (e : Enc) : Enc := { encScramble e with st := statusDone e.wp }

/-- `raise` in `ENC` (R214): the output is unspecified from then on. -/
def encRaise (c : Cause) (e : Enc) : Enc :=
  { encScramble e with st := statusRaised c (encFree e 7), out := Memory.alloc e.out.size }

/-- The reset input of `ENC` (R240). -/
def encReset (e : Enc) : Enc :=
  { encScramble e with
    st := statusReset (encFree e 7), n := encFree e 8, inp := Memory.alloc e.inp.size, out := Memory.alloc e.out.size,
    fresh := e.fresh + 9 }

/-! ### DEC: start, end, fault, reset -/

/-- The `k`-th free number of `DEC` from here (log 3). -/
def decFree (d : Dec) (k : Nat) : Nat := Config.freeNat .dec (d.fresh + k)

/-- `DEC` with every working register and temporary unspecified (R35, U2). -/
def decScramble (d : Dec) : Dec :=
  { d with
    ip := decFree d 0, dst := decFree d 1, ctrl := BitVec.ofNat 9 (decFree d 2), word := BitVec.ofNat 16 (decFree d 3),
    count := BitVec.ofNat 11 (decFree d 4), offset := BitVec.ofNat 12 (decFree d 5),
    length := BitVec.ofNat 12 (decFree d 6), phase := .loop, fresh := d.fresh + 8 }

/-- The per-call initialisation of `DECOMPRESS` (R35, R187, R241): `ip = 0`, `dst = 0`, `ctrl = 2`. -/
def decBegin (d : Dec) : Dec :=
  { decScramble d with
    st := statusStarted (decFree d 7), ip := 0, dst := 0, ctrl := Config.ctrlSentinelInit, out := Memory.alloc d.l }

/-- `DECOMPRESS` ends well with `out_len = L` (R187, R251). -/
def decFinish (d : Dec) : Dec := { decScramble d with st := statusDone d.l }

/-- `raise` in `DEC` (R214): the output is unspecified from then on. -/
def decRaise (c : Cause) (d : Dec) : Dec :=
  { decScramble d with st := statusRaised c (decFree d 7), out := Memory.alloc d.out.size }

/-- The reset input of `DEC` (R240). -/
def decReset (d : Dec) : Dec :=
  { decScramble d with
    st := statusReset (decFree d 7), m := decFree d 8, l := decFree d 9, inp := Memory.alloc d.inp.size,
    out := Memory.alloc d.out.size, fresh := d.fresh + 10 }

end Sys2Proof.Machine
end

