-- ==== Sys2Proof/Machine/Operands.lean ====
section
/-! DEFINITION. Operand forms: the operands of a copy when decoding and the body bytes when encoding (R94 to R96), the rows
of samples a predictor reads (R120). -/

namespace Sys2Proof.Machine

open Sys2Proof

/-- The short form's count, `word & 7` (R96). -/
def countShort (c : BitVec 3) : BitVec 11 := c.setWidth 11

/-- The long form's count, `(count << 8) | nextByte` (R96). -/
def countLong (h : BitVec 3) (ext : Byte) : BitVec 11 := h.setWidth 11 <<< 8 ||| ext.setWidth 11

/-- `length = count + 4` (R96): 4..2051, which fits the 12 bits of `DEC.length` (R32). -/
def copyLength (count : BitVec 11) : Nat := count.toNat + Config.minMatch

/-- The bytes of the copy body for an offset and a length (R94, R95, R155): short when `length − 4 ≤ 7`, long otherwise. -/
def copyBody (off len : Nat) : List Byte :=
  let c := len - Config.minMatch
  if c ≤ Config.shortMaxCount then
    let w := copyWord (BitVec.ofNat 12 off) true (BitVec.ofNat 3 c)
    [loByte w, hiByte w]
  else
    let w := copyWord (BitVec.ofNat 12 off) false (BitVec.ofNat 3 (c / 256))
    [loByte w, hiByte w, BitVec.ofNat 8 c]

/-- The bytes of a literal body (R92, R154). -/
def literalBody (bytes : List Byte) : List Byte := BitVec.ofNat 8 bytes.length :: bytes

/-- Row `r` of the pixel buffer: `cur` of a row operation (R61, R120). -/
def fltRowBytes (f : Flt) (r : Nat) : Except Fault (List Byte) := f.pix.readRange (fltStride f) (r * fltStride f)

end Sys2Proof.Machine
end

