-- ==== Sys2Proof/Machine/Flags.lean ====
section
/-! DEFINITION. The bits and comparisons that steer control (R33) and the tag register's shift and reload (R180). The core
has no condition codes. -/

namespace Sys2Proof.Machine

open Sys2Proof

/-- `ctrl <- ctrl >> 1`, a logical shift (R180, R192). -/
def ctrlShift (ctrl : BitVec 9) : BitVec 9 := ctrl >>> 1

/-- The sentinel test: the tag register holds no tag (R33 (b), R180). -/
def ctrlEmpty (ctrl : BitVec 9) : Bool := ctrl == 1

/-- `ctrl <- byte | 0x100` (R180). -/
def ctrlReload (tags : Byte) : BitVec 9 := tags.setWidth 9 ||| Config.ctrlReloadBit

/-- The tag, `ctrl & 1`: 1 a copy, 0 a literal (R33 (a), R180). -/
def ctrlTag (ctrl : BitVec 9) : Bool := ctrl.getLsbD 0

/-- A match worth a copy: `best_len ≥ 4` (R33 (d), R152). -/
def profitable (len : Nat) : Bool := decide (Config.minMatch ≤ len)

/-- `nq = 8` (R33 (d), R156). -/
def groupFull (nq : Nat) : Bool := decide (nq = Config.tagsPerCtrl)

/-- The tag accumulator with one more tag, `acc | (tag << nq)` (R156). -/
def accWithTag (acc : Byte) (tag : Bool) (nq : Nat) : Byte := acc ||| (BitVec.ofBool tag).setWidth 8 <<< nq

/-- `cost < best_cost`, strict (R33 (e), R126). -/
def cheaper (cost best : Nat) : Bool := decide (cost < best)

end Sys2Proof.Machine
end

