-- ==== Sys2Proof/Machine/Compress.lean ====
section
/-! DEFINITION. `ENC`, the LZ compressor (41_lz_compress): match search, literal run, body encoders, tag queue, and the
meaning of `COMPRESS`. -/

namespace Sys2Proof.Machine

open Sys2Proof

/-- The common-prefix length of two byte sequences, capped (R150). -/
def prefixLen : Nat → List Byte → List Byte → Nat
  | 0, _, _ => 0
  | cap + 1, x :: xs, y :: ys => if x = y then prefixLen cap xs ys + 1 else 0
  | _ + 1, [], _ => 0
  | _ + 1, _ :: _, [] => 0

/-- A match: its length and its offset; `(0, 0)` when there is none (R150). -/
structure Match where
  len : Nat
  off : Nat
  deriving DecidableEq, Repr

/-- The cap of the match search at `p`: `min(2051, N − p)` (R150). -/
def matchCap (inp : List Byte) (p : Nat) : Nat := min Config.maxMatch (inp.length - p)

/-- The backward scan of R150 over `k` more candidates, the next one `off` back: strictly longer replaces (decision D10), and
the scan ends early at the cap. -/
def matchScan (inp : List Byte) (p : Nat) : Nat → Nat → Match → Match
  | 0, _, best => best
  | k + 1, off, best =>
    let l := prefixLen (matchCap inp p) (inp.drop (p - off)) (inp.drop p)
    let best' : Match := if best.len < l then { len := l, off := off } else best
    if best'.len = matchCap inp p then best' else matchScan inp p k (off + 1) best'

/-- `MATCH(p)` (R150): candidates from `p − 1` down to `max(0, p − 4095)`. -/
def matchAt (inp : List Byte) (p : Nat) : Match :=
  matchScan inp p (min p Config.window) 1 { len := 0, off := 0 }

/-- The loop of `LITRUN(p)` (R153) with room for `k` more bytes: the run's length and the last match search's result. -/
def litRunLoop (inp : List Byte) (p : Nat) : Nat → Nat → Match → Nat × Match
  | 0, run, last => (run, last)
  | k + 1, run, last =>
    if p + run < inp.length then
      let m := matchAt inp (p + run)
      if profitable m.len then (run, m) else litRunLoop inp p k (run + 1) m
    else (run, last)

/-- `LITRUN(p)` (R153): the byte at `p` is always taken, at most 255 in all. -/
def litRun (inp : List Byte) (p : Nat) (last : Match) : Nat × Match :=
  litRunLoop inp p (Config.maxLiteral - 1) 1 last

/-- `FLUSH()` (R157): the control byte, then the queued bodies in order. -/
def encFlush (e : Enc) : Result Enc :=
  access (e.out.writeBytes (e.acc :: e.q) e.wp) fun out =>
    .next { e with out := out, wp := e.wp + (1 + e.q.length), acc := 0, nq := 0, q := [] }

/-- `PUSH(tag, body)` (R156): the eighth block flushes its group. -/
def encPush (tag : Bool) (body : List Byte) (e : Enc) : Result Enc :=
  let g := { e with acc := accWithTag e.acc tag e.nq, q := e.q ++ body, nq := e.nq + 1 }
  if groupFull g.nq then encFlush g else .next g

/-- `EMIT_LITERAL(p, n)` (R154) on the bytes of the run, with its construction-time check (R215); `next` is what follows in
the command when no fault is raised (R14). -/
def encEmitLiteral (bytes : List Byte) (e : Enc) (next : Enc → Result Enc) : Result Enc :=
  if bytes.length < 1 ∨ Config.maxLiteral < bytes.length then .next (encRaise .encLiteralLength e)
  else andThen (encPush false (literalBody bytes) e) next

/-- `EMIT_COPY(off, len)` (R155) with its construction-time check (R215); `next` as for `encEmitLiteral`. -/
def encEmitCopy (off len : Nat) (e : Enc) (next : Enc → Result Enc) : Result Enc :=
  if len < Config.minMatch ∨ Config.maxMatch < len ∨ off < 1 ∨ Config.window < off then .next (encRaise .encCopyRange e)
  else andThen (encPush true (copyBody off len) e) next

/-- `DECIDE` (R152) on the input bytes: a copy of the whole best length when it is at least 4, else a literal run. -/
def encDecideOn (inp : List Byte) (e : Enc) : Result Enc :=
  let m := matchAt inp e.src
  if profitable m.len then
    encEmitCopy m.off m.len { e with bestLen := m.len, bestOff := m.off } fun g =>
      .next { g with src := e.src + m.len }
  else
    let rl := litRun inp e.src m
    encEmitLiteral ((inp.drop e.src).take rl.1) { e with bestLen := rl.2.len, bestOff := rl.2.off, run := rl.1 } fun g =>
      .next { g with src := e.src + rl.1 }

/-- `DECIDE` (R152): `ENC.IN` holds the `N` bytes (R34; log 22). -/
def encDecide (e : Enc) : Result Enc := access (e.inp.readRange e.n 0) fun inp => encDecideOn inp e

/-- The end of `COMPRESS` (R158): a partial group is flushed, an empty one writes nothing (R159). -/
def encEnd (e : Enc) : Result Enc :=
  if e.nq = 0 then .next (encFinish e) else andThen (encFlush e) fun g => .next (encFinish g)

/-- One move of a busy `ENC` (R158). -/
def encMove (e : Enc) : Result Enc := if e.src < e.n then encDecide e else encEnd e

/-- At most `k` moves, ending when the command has ended. -/
def encRun : Nat → Enc → Result Enc
  | 0, e => .next e
  | k + 1, e => if e.st.busy then andThen (encMove e) (encRun k) else .next e

/-- Writing `ENC.start` (R22, R158): refused while busy (U10) or when the `require` is false (U3). -/
def encStart (e : Enc) : Result Enc :=
  if e.st.busy then .refused .startWhileBusy
  else if e.n ≤ Config.maxLen ∧ e.inp.size = e.n then .next (encBegin e)
  else .refused .contract

/-- `COMPRESS` from start to end (R158); each `DECIDE` consumes at least one byte, so `N + 1` moves are enough (R250). -/
def encCompress (e : Enc) : Result Enc := andThen (encStart e) fun g => encRun (g.n + 1) g

/-- `COMPRESS` (R158). -/
def execCompress (s : State) : Result State := onEnc (encCompress s.enc) s

end Sys2Proof.Machine
end

