-- ==== Sys2Proof/Machine/Decompress.lean ====
section
/-! DEFINITION. `DEC`, the LZ decompressor (42_lz_decompress): tag fetch, block executors, and the meanings of `CTRL`,
`LITERAL`, `COPY_SHORT`, `COPY_LONG`, `DECOMPRESS`. -/

namespace Sys2Proof.Machine

open Sys2Proof

/-- Take `k` bytes of the input (R190 (a)): `DEC_INPUT_EXHAUSTED` unless all are there (R211), else `ip` moves past them. -/
def decTake (k : Nat) (d : Dec) (next : Dec → Result Dec) : Result Dec :=
  if d.m < d.ip + k then .next (decRaise .decInputExhausted d) else next { d with ip := d.ip + k }

/-- `CTRL`: the reload of `NEXT_TAG` (R180, R181). -/
def decCtrl (tags : Byte) (d : Dec) : Result Dec :=
  decTake 1 d fun g => .next { g with ctrl := ctrlReload tags, phase := .body }

/-- `LITERAL` (R182): the count byte and the payload are taken together, since the input check comes first (R217).
`length` takes the count (R32; log 11). -/
def decLiteral (payload : List Byte) (d : Dec) : Result Dec :=
  decTake (1 + payload.length) d fun g =>
    if g.l < g.dst + payload.length then .next (decRaise .decLiteralDestRange g)
    else
      access (g.out.writeBytes payload g.dst) fun out =>
        .next
          { g with
            out := out, dst := g.dst + payload.length, length := BitVec.ofNat 12 payload.length, phase := .loop }

/-- `COPY_BYTES(offset, length)` (R185): source range, then destination range, then the ascending copy. -/
def decCopyBytes (offset length : Nat) (d : Dec) : Result Dec :=
  if offset < 1 ∨ d.dst < offset then .next (decRaise .decCopySourceRange d)
  else if d.l < d.dst + length then .next (decRaise .decCopyDestRange d)
  else
    access (d.out.copyBytes length (d.dst - offset) d.dst) fun out =>
      .next { d with out := out, dst := d.dst + length, phase := .loop }

/-- `COPY()` with its operands assembled (R183, R184). -/
def decCopy (size : Nat) (word : Word) (count : BitVec 11) (offset : BitVec 12) (d : Dec) : Result Dec :=
  decTake size d fun g =>
    decCopyBytes offset.toNat (copyLength count)
      { g with word := word, count := count, offset := offset, length := BitVec.ofNat 12 (copyLength count) }

/-- `COPY_SHORT` (R183). -/
def decCopyShort (offset : BitVec 12) (c : BitVec 3) (d : Dec) : Result Dec :=
  decCopy 2 (copyWord offset true c) (countShort c) offset d

/-- `COPY_LONG` (R184). -/
def decCopyLong (offset : BitVec 12) (h : BitVec 3) (ext : Byte) (d : Dec) : Result Dec :=
  decCopy 3 (copyWord offset false h) (countLong h ext) offset d

/-- What a busy `DEC` does next. -/
inductive DecNext
  /-- `dst = L`: the command ends (R187). -/
  | finish
  /-- The next item needs bytes at or beyond `M` (R211). -/
  | exhausted
  /-- The next item needs an input byte that has no value (log 4). -/
  | stop (x : Fault)
  /-- An instruction, and the engine as it is run on (the tag register shifted, R180). -/
  | run (i : Instr) (d : Dec)
  deriving DecidableEq, Repr

/-- Fetch the item of a slot at `ip` (R97): the bytes are read in ascending order and no further than the item (log 22). -/
def decFetchAt (p : Params) (slot : Slot) (d : Dec) : DecNext :=
  let bytes := d.inp.stream (d.m - d.ip) d.ip
  match decode p slot bytes with
  | .ok (i, _) => .run i d
  | .error _ => if d.m ≤ d.ip + bytes.length then .exhausted else .stop .unwrittenByte

/-- The loop of R187 and `STEP` (R186): the loop test, `NEXT_TAG`'s shift and sentinel test (R180), then the control byte
that is due or the body the tag selects. -/
def decFetch (p : Params) (d : Dec) : DecNext :=
  match d.phase with
  | .loop =>
    if d.dst < d.l then
      let c := ctrlShift d.ctrl
      decFetchAt p (if ctrlEmpty c then .control else bodySlot (ctrlTag c)) { d with ctrl := c }
    else .finish
  | .body => decFetchAt p (bodySlot (ctrlTag d.ctrl)) d

/-- The meaning of the instructions `DEC` fetches. -/
def decExec (i : Instr) (d : Dec) : Result Dec :=
  match i with
  | .ctrl tags => decCtrl tags d
  | .literal payload => decLiteral payload d
  | .copyShort offset c => decCopyShort offset c d
  | .copyLong offset h ext => decCopyLong offset h ext d
  | .predA => .refused .notOfThisEngine
  | .predB => .refused .notOfThisEngine
  | .predC => .refused .notOfThisEngine
  | .filterRow _ _ => .refused .notOfThisEngine
  | .filterImage => .refused .notOfThisEngine
  | .compress => .refused .notOfThisEngine
  | .decompress => .refused .notOfThisEngine

/-- One move of a busy `DEC` (R186; log 13). -/
def decMove (p : Params) (d : Dec) : Result Dec :=
  match decFetch p d with
  | .finish => .next (decFinish d)
  | .exhausted => .next (decRaise .decInputExhausted d)
  | .stop x => .fault x
  | .run i g => decExec i g

/-- At most `k` moves, ending when the command has ended. -/
def decRun (p : Params) : Nat → Dec → Result Dec
  | 0, d => .next d
  | k + 1, d => if d.st.busy then andThen (decMove p d) (decRun p k) else .next d

/-- Writing `DEC.start` (R22, R187): refused while busy (U10) or when the `require` is false (U3). -/
def decStart (d : Dec) : Result Dec :=
  if d.st.busy then .refused .startWhileBusy
  else if d.m ≤ Config.maxLen ∧ d.l ≤ Config.maxLen ∧ d.inp.size = d.m then .next (decBegin d)
  else .refused .contract

/-- `DECOMPRESS` from start to end (R187); every instruction consumes at least one input byte, so `M + 1` moves are enough
(R186, R250). -/
def decDecompress (p : Params) (d : Dec) : Result Dec := andThen (decStart d) fun g => decRun p (g.m + 1) g

/-- `CTRL` (R180). -/
def execCtrl (tags : Byte) (s : State) : Result State := onDec (decCtrl tags s.dec) s

/-- `LITERAL` (R182). -/
def execLiteral (payload : List Byte) (s : State) : Result State := onDec (decLiteral payload s.dec) s

/-- `COPY_SHORT` (R183). -/
def execCopyShort (offset : BitVec 12) (c : BitVec 3) (s : State) : Result State := onDec (decCopyShort offset c s.dec) s

/-- `COPY_LONG` (R184). -/
def execCopyLong (offset : BitVec 12) (h : BitVec 3) (ext : Byte) (s : State) : Result State :=
  onDec (decCopyLong offset h ext s.dec) s

/-- `DECOMPRESS` (R187). -/
def execDecompress (s : State) : Result State := onDec (decDecompress s.params s.dec) s

end Sys2Proof.Machine
end

