-- ==== Sys2Proof/Machine/Filter.lean ====
section
/-! DEFINITION. `FLT`, the row predictive filter (40_filter): residual generators, cost, selection, and the meanings of
`PRED_A`, `PRED_B`, `PRED_C`, `FILTER_ROW`, `FILTER_IMAGE`. -/

namespace Sys2Proof.Machine

open Sys2Proof

/-- `PRED_A`'s residual row: the first pixel verbatim, then left neighbour minus sample, mod 256 (R121). -/
def residualA (cur : List Byte) : List Byte :=
  cur.take Config.pixelSize ++ List.zipWith (fun left x => left - x) cur (cur.drop Config.pixelSize)

/-- `PRED_B`'s residual row: sample above minus sample, mod 256 (R122). -/
def residualB (prev cur : List Byte) : List Byte := List.zipWith (fun up x => up - x) prev cur

/-- `floor((left + up) / 2)`, the sum exact (R123, R128). -/
def average (left up : Byte) : Byte := BitVec.ofNat 8 ((left.toNat + up.toNat) / 2)

/-- `PRED_C`'s residual row: the first pixel verbatim, then sample minus the average of left and above, mod 256 (R123; the
sign is the spec's decision D2, log 20). -/
def residualC (prev cur : List Byte) : List Byte :=
  cur.take Config.pixelSize ++
    List.zipWith (fun p x => x - p) (List.zipWith average cur (prev.drop Config.pixelSize)) (cur.drop Config.pixelSize)

/-- `mag(b)` (R124): the magnitude of the signed byte, −128 mapped to 127. -/
def mag (b : Byte) : Nat :=
  if b.toNat = 128 then 127 else if b.toNat ≤ 127 then b.toNat else 256 - b.toNat

/-- The sum of magnitudes, an exact natural number (R125, R128). -/
def costOf : List Byte → Nat
  | [] => 0
  | b :: bs => mag b + costOf bs

/-- `COST` (R125): A and C leave out the verbatim first pixel, B leaves out nothing. -/
def costFor (x : Pred) (res : List Byte) : Nat :=
  match x with
  | .a => costOf (res.drop Config.pixelSize)
  | .b => costOf res
  | .c => costOf (res.drop Config.pixelSize)

/-- A candidate enters the selection (R126, R129): A always becomes best, B and C only when strictly cheaper. -/
def fltConsider (x : Pred) (cand : List Byte) (f : Flt) : Flt :=
  let c := costFor x cand
  if x = .a ∨ cheaper c f.bestCost then { f with cand := cand, cost := c, best := x, bestCost := c, res := cand }
  else { f with cand := cand, cost := c }

/-- `PRED_A` and the lines of R129 it feeds; on row 0 the row is then decided (R127). -/
def fltPredA (f : Flt) : Result Flt :=
  access (fltRowBytes f f.row) fun cur =>
    .next { fltConsider .a (residualA cur) f with phase := if f.row = 0 then .record else .predictor .b }

/-- `PRED_B` and the lines of R129 it feeds; not available on row 0 (log 24). -/
def fltPredB (f : Flt) : Result Flt :=
  if f.row = 0 then .refused .predictorUnavailable
  else
    access (fltRowBytes f f.row) fun cur =>
      access (fltRowBytes f (f.row - 1)) fun prev =>
        .next { fltConsider .b (residualB prev cur) f with phase := .predictor .c }

/-- `PRED_C` and the lines of R129 it feeds; not available on row 0 (log 24). -/
def fltPredC (f : Flt) : Result Flt :=
  if f.row = 0 then .refused .predictorUnavailable
  else
    access (fltRowBytes f f.row) fun cur =>
      access (fltRowBytes f (f.row - 1)) fun prev =>
        .next { fltConsider .c (residualC prev cur) f with phase := .record }

/-- The last line of `FILTER_ROW`: the id of the predictor held as best (R129, R102). -/
def fltName (p : Params) (f : Flt) : Flt := { f with id := idOfPred p f.best }

/-- The candidates of `FILTER_ROW` after A: none on row 0 (R126, R127, R129). -/
def fltRowRest (f : Flt) : Result Flt :=
  if f.row = 0 then .next f else andThen (fltPredB f) fltPredC

/-- `FILTER_ROW` on the row `FLT.row` (R129). -/
def fltRow (p : Params) (f : Flt) : Result Flt :=
  andThen (andThen (fltPredA f) fltRowRest) fun f' => .next (fltName p f')

/-- `FILTER_ROW` as a command (R129; log 9): refused while busy (U10) and for a width of 0; it returns `id` and `res` and
writes no status bit. -/
def fltFilterRow (p : Params) (w r : BitVec 16) (f : Flt) : Result Flt :=
  if f.st.busy then .refused .startWhileBusy
  else if w = 0 then .refused .contract
  else
    andThen (fltRow p { f with w := w, row := r.toNat }) fun f' => .next { f' with phase := .predictor .a }

/-- The sub-header (R66, R103): reserved bytes, `bitsPerPixel`, width, height, the words low byte first. -/
def subHeader (p : Params) (w h : BitVec 16) : List Byte :=
  [p.reserved0, p.reserved1, loByte Config.bitsPerPixel, hiByte Config.bitsPerPixel, loByte w, hiByte w, loByte h, hiByte h]

/-- Writing `FLT.start` (R22, R131): refused while busy (U10) or when the `require` of R131 is false (U3); else the per-call
initialisation and the sub-header. -/
def fltStart (p : Params) (f : Flt) : Result Flt :=
  if f.st.busy then .refused .startWhileBusy
  else if f.w ≠ 0 ∧ f.h ≠ 0 ∧ f.pix.size = f.h.toNat * fltStride f then
    access ((fltBegin f).fs.writeBytes (subHeader p f.w f.h) 0) fun fs => .next { fltBegin f with fs := fs }
  else .refused .contract

/-- The end of a row in `FILTER_IMAGE` (R131): the id into the control array, the residual row into the residual buffer (R66). -/
def fltRecord (p : Params) (f : Flt) : Result Flt :=
  let g := fltName p f
  access (g.fs.write (Config.subheaderLen + g.row) g.id) fun fs =>
    access (fs.writeBytes g.res (Config.subheaderLen + g.h.toNat + g.row * fltStride g)) fun fs' =>
      .next { g with fs := fs', row := g.row + 1, phase := .predictor .a }

/-- What a busy `FLT` does next. -/
inductive FltNext
  | finish
  | record
  | run (i : Instr)
  deriving DecidableEq, Repr

/-- The row loop of R131: the next line. -/
def fltFetch (f : Flt) : FltNext :=
  match f.phase with
  | .record => .record
  | .predictor x => if x = .a ∧ f.h.toNat ≤ f.row then .finish else .run x.instr

/-- The meaning of the instructions `FLT` fetches. -/
def fltExec (i : Instr) (f : Flt) : Result Flt :=
  match i with
  | .predA => fltPredA f
  | .predB => fltPredB f
  | .predC => fltPredC f
  | .ctrl _ => .refused .notOfThisEngine
  | .literal _ => .refused .notOfThisEngine
  | .copyShort _ _ => .refused .notOfThisEngine
  | .copyLong _ _ _ => .refused .notOfThisEngine
  | .filterRow _ _ => .refused .notOfThisEngine
  | .filterImage => .refused .notOfThisEngine
  | .compress => .refused .notOfThisEngine
  | .decompress => .refused .notOfThisEngine

/-- One move of a busy `FLT`. -/
def fltMove (p : Params) (f : Flt) : Result Flt :=
  match fltFetch f with
  | .finish => .next (fltFinish f)
  | .record => fltRecord p f
  | .run i => fltExec i f

/-- At most `k` moves, ending when the command has ended. -/
def fltRun (p : Params) : Nat → Flt → Result Flt
  | 0, f => .next f
  | k + 1, f => if f.st.busy then andThen (fltMove p f) (fltRun p k) else .next f

/-- Moves enough for any image: four a row and one to finish (R250). -/
def fltFuel (f : Flt) : Nat := 4 * f.h.toNat + 1

/-- `FILTER_IMAGE` from start to end (R131). -/
def fltFilterImage (p : Params) (f : Flt) : Result Flt :=
  andThen (fltStart p f) fun g => fltRun p (fltFuel g) g

/-- `PRED_A` (R121). -/
def execPredA (s : State) : Result State := onFlt (fltPredA s.flt) s

/-- `PRED_B` (R122). -/
def execPredB (s : State) : Result State := onFlt (fltPredB s.flt) s

/-- `PRED_C` (R123). -/
def execPredC (s : State) : Result State := onFlt (fltPredC s.flt) s

/-- `FILTER_ROW` (R129). -/
def execFilterRow (w r : BitVec 16) (s : State) : Result State := onFlt (fltFilterRow s.params w r s.flt) s

/-- `FILTER_IMAGE` (R131). -/
def execFilterImage (s : State) : Result State := onFlt (fltFilterImage s.params s.flt) s

end Sys2Proof.Machine
end

