-- ==== Sys2Proof/Machine/Dispatch.lean ====
section
/-! DEFINITION. `exec`: one arm per row of the opcode table, each a call of its meaning. -/

namespace Sys2Proof.Machine

open Sys2Proof

/-- The meaning of every instruction. -/
def exec (i : Instr) (s : State) : Host.Outcome State Fault Refusal :=
  match i with
  | .ctrl tags => Sys2Proof.Machine.execCtrl tags s
  | .literal payload => Sys2Proof.Machine.execLiteral payload s
  | .copyShort offset c => Sys2Proof.Machine.execCopyShort offset c s
  | .copyLong offset h ext => Sys2Proof.Machine.execCopyLong offset h ext s
  | .predA => Sys2Proof.Machine.execPredA s
  | .predB => Sys2Proof.Machine.execPredB s
  | .predC => Sys2Proof.Machine.execPredC s
  | .filterRow w r => Sys2Proof.Machine.execFilterRow w r s
  | .filterImage => Sys2Proof.Machine.execFilterImage s
  | .compress => Sys2Proof.Machine.execCompress s
  | .decompress => Sys2Proof.Machine.execDecompress s

end Sys2Proof.Machine
end

