-- ==== Sys2Proof/Machine/HostPort.lean ====
section
/-! DEFINITION. The host's side (R220, R243, R252): filling input spaces, writing arguments, writing `start`, the reset
inputs, handing one command's output to another engine, and what the host can observe of an engine (R251). -/

namespace Sys2Proof.Machine

open Sys2Proof

/-- The status registers of an engine (R22). -/
def statusOf (s : State) : Engine → Status
  | .flt => s.flt.st
  | .enc => s.enc.st
  | .dec => s.dec.st

/-- The host may touch an engine's spaces and arguments only while it is not busy (R252, U10). -/
def whenIdle (e : Engine) (s : State) (r : Result State) : Result State :=
  if (statusOf s e).busy then .refused .hostAccessWhileBusy else r

/-- An engine's input space replaced. -/
def withInput (e : Engine) (bytes : List Byte) (s : State) : State :=
  match e with
  | .flt => { s with flt := { s.flt with pix := Memory.ofBytes bytes } }
  | .enc => { s with enc := { s.enc with inp := Memory.ofBytes bytes } }
  | .dec => { s with dec := { s.dec with inp := Memory.ofBytes bytes } }

/-- The length register that goes with an input space: `ENC.N`, `DEC.M`; `FLT` has none. -/
def withInputLength (e : Engine) (k : Nat) (s : State) : State :=
  match e with
  | .flt => s
  | .enc => { s with enc := { s.enc with n := k } }
  | .dec => { s with dec := { s.dec with m := k } }

/-- Writing `start` (R22). -/
def hostStart (e : Engine) (s : State) : Result State :=
  match e with
  | .flt => onFlt (fltStart s.params s.flt) s
  | .enc => onEnc (encStart s.enc) s
  | .dec => onDec (decStart s.dec) s

/-- The reset input of an engine (R240), which the host may use at any time (R252). -/
def hostReset (e : Engine) (s : State) : State :=
  match e with
  | .flt => { s with flt := fltReset s.flt }
  | .enc => { s with enc := encReset s.enc }
  | .dec => { s with dec := decReset s.dec }

/-- An engine's output space (R60). -/
def outputOf (s : State) : Engine → Memory
  | .flt => s.flt.fs
  | .enc => s.enc.out
  | .dec => s.dec.out

/-- The first `out_len` bytes of an engine's output space. -/
def outputBytes (s : State) (e : Engine) : Except Fault (List Byte) :=
  (outputOf s e).readRange (statusOf s e).outLen 0

/-- Handing an output over (R2, R21; log 17): allowed only when the source is done (R70, R252) and the target idle. -/
def hostHandOver (from_ to_ : Engine) (s : State) : Result State :=
  if (statusOf s from_).busy ∨ ¬ (statusOf s from_).done then .refused .outputNotReady
  else
    whenIdle to_ s
      (access (outputBytes s from_) fun bytes => .next (withInputLength to_ bytes.length (withInput to_ bytes s)))

/-- What a host that keeps its duties can observe of an engine (R251, R252). -/
inductive Observation
  /-- No command has ended since reset. -/
  | idle
  /-- `busy = 1`: a command that has not ended has no observable result. -/
  | running
  /-- `done = 1`: the first `out_len` bytes of the output space and nothing else. -/
  | ok (bytes : List Byte)
  /-- `fault = 1`: the fault code and nothing else. -/
  | failed (code : BitVec 3)
  deriving DecidableEq, Repr

/-- The observation of an engine (R251); a fault of the model where an output byte has no value. -/
def observe (s : State) (e : Engine) : Except Fault Observation :=
  if (statusOf s e).busy then .ok .running
  else if (statusOf s e).fault then .ok (.failed (statusOf s e).faultCode)
  else if (statusOf s e).done then
    match outputBytes s e with
    | .ok bytes => .ok (.ok bytes)
    | .error x => .error x
  else .ok .idle

end Sys2Proof.Machine
end

