-- ==== Sys2Proof/Machine/Moves.lean ====
section
/-! DEFINITION. Who moves next: the host's oldest pending action, else a busy engine (log 6). An engine's move fetches its
next instruction and runs it by `exec`. Also `placeWord`, which sets the machine up to run a given table word next. -/

namespace Sys2Proof.Machine

open Sys2Proof

/-- A move of `FLT` in the machine. -/
def fltTurn (s : State) : Result State :=
  match fltFetch s.flt with
  | .finish => .next { s with flt := fltFinish s.flt }
  | .record => onFlt (fltRecord s.params s.flt) s
  | .run i => exec i s

/-- A move of `ENC` in the machine: it fetches no instruction, one `DECIDE` or the end of `COMPRESS` is its move (R158). -/
def encTurn (s : State) : Result State := onEnc (encMove s.enc) s

/-- A move of `DEC` in the machine. -/
def decTurn (s : State) : Result State :=
  match decFetch s.params s.dec with
  | .finish => .next { s with dec := decFinish s.dec }
  | .exhausted => .next { s with dec := decRaise .decInputExhausted s.dec }
  | .stop x => .fault x
  | .run i d => exec i { s with dec := d }

/-- One move of an engine; an engine that is not busy does nothing (R219). -/
def engineTurn (e : Engine) (s : State) : Result State :=
  if (statusOf s e).busy then
    match e with
    | .flt => fltTurn s
    | .enc => encTurn s
    | .dec => decTurn s
  else .next s

/-- One action of the host. -/
def hostTurn (op : HostOp) (s : State) : Result State :=
  match op with
  | .fill e bytes => whenIdle e s (.next (withInput e bytes s))
  | .argsFlt w h => whenIdle .flt s (.next { s with flt := { s.flt with w := w, h := h } })
  | .argsEnc n => whenIdle .enc s (.next { s with enc := { s.enc with n := n } })
  | .argsDec m l => whenIdle .dec s (.next { s with dec := { s.dec with m := m, l := l } })
  | .start e => hostStart e s
  | .invoke c => exec c.instr s
  | .move e => engineTurn e s
  | .reset e => .next (hostReset e s)
  | .handOver from_ to_ => hostHandOver from_ to_ s

/-- The next move of the machine. With no host action pending the busy engines move, `FLT` before `ENC` before `DEC`: their
order is not observable (R21; log 6). -/
def nextMove (s : State) : Result State :=
  match s.host with
  | op :: rest => hostTurn op { s with host := rest }
  | [] =>
    if s.flt.st.busy then engineTurn .flt s
    else if s.enc.st.busy then engineTurn .enc s
    else engineTurn .dec s

/-- `FLT` in the middle of `FILTER_IMAGE`, about to evaluate a predictor on a row of a one-pixel-wide image of zeros: row 0
for A, row 1 for B and C. -/
def placePredictor (x : Pred) (f : Flt) : Flt :=
  { f with
    st := statusStarted 0, w := 1, h := 2, pix := Memory.ofBytes (List.replicate 6 0), phase := .predictor x,
    row := if x = .a then 0 else 1 }

/-- `DEC` in the middle of `DECOMPRESS` with these bytes next in its input and an output space of the largest length. -/
def placeStream (bytes : List Byte) (phase : DecPhase) (ctrl : BitVec 9) (d : Dec) : Dec :=
  { d with
    st := statusStarted 0, inp := Memory.ofBytes bytes, m := bytes.length, ip := 0, l := Config.maxLen,
    out := Memory.alloc Config.maxLen, dst := 0, phase := phase, ctrl := ctrl }

/-- The machine about to run an instruction (log 8). -/
def placeInstr (i : Instr) (bytes : List Byte) (s : State) : State :=
  match i with
  | .ctrl _ => { s with dec := placeStream bytes .loop Config.ctrlSentinelInit s.dec, host := .move .dec :: s.host }
  | .literal _ => { s with dec := placeStream bytes .body (ctrlReload 0) s.dec, host := .move .dec :: s.host }
  | .copyShort _ _ => { s with dec := placeStream bytes .body (ctrlReload 1) s.dec, host := .move .dec :: s.host }
  | .copyLong _ _ _ => { s with dec := placeStream bytes .body (ctrlReload 1) s.dec, host := .move .dec :: s.host }
  | .predA => { s with flt := placePredictor .a s.flt, host := .move .flt :: s.host }
  | .predB => { s with flt := placePredictor .b s.flt, host := .move .flt :: s.host }
  | .predC => { s with flt := placePredictor .c s.flt, host := .move .flt :: s.host }
  | .filterRow w r => { s with host := .invoke (.filterRow w r) :: s.host }
  | .filterImage => { s with host := .invoke .filterImage :: s.host }
  | .compress => { s with host := .invoke .compress :: s.host }
  | .decompress => { s with host := .invoke .decompress :: s.host }

/-- The machine about to run a table word (log 7, log 8); unchanged where the word does not decode. -/
def placeWord (s : State) (nbits w : Nat) : State :=
  match decodeTableWord nbits w with
  | some i => placeInstr i (tableBytes nbits w) s
  | none => s

end Sys2Proof.Machine
end

