-- ==== Sys2Proof/Machine/Step.lean ====
section
/-! DEFINITION. One step of the machine, and the machine about to run a given table word. -/

namespace Sys2Proof.Machine

open Sys2Proof

/-- One step: the next move (`nextMove`). -/
def step (s : State) : Host.Outcome State Fault Refusal := nextMove s

/-- The machine with a table word placed where the next step runs it (log 7, log 8). -/
def State.withFetchWord (s : State) (nbits w : Nat) : State := placeWord s nbits w

end Sys2Proof.Machine
end

