-- ==== Sys2Proof/Machine/Pure.lean ====
section
/-! DEFINITION. The three commands as pure functions from bytes to bytes or a fault cause (R3, R22's last paragraph, decision
D1). The engines are not defined by these; statements compare the two designs. -/

namespace Sys2Proof.Machine

open Sys2Proof

/-! ### COMPRESS: a list of blocks, cut into groups of eight -/

/-- A block of the compressed stream (R90, R104). -/
inductive Block
  | lit (bytes : List Byte)
  | copy (off len : Nat)
  deriving DecidableEq, Repr

/-- The tag: 1 = Copy, 0 = Literal (R91). -/
def Block.tag : Block → Bool
  | .lit _ => false
  | .copy _ _ => true

/-- The body bytes (R92, R94, R95). -/
def Block.body : Block → List Byte
  | .lit bytes => literalBody bytes
  | .copy off len => copyBody off len

/-- The ranges of R101 without the bound on the offset by the output position. -/
def Block.canonical : Block → Bool
  | .lit bytes => decide (1 ≤ bytes.length ∧ bytes.length ≤ Config.maxLiteral)
  | .copy off len =>
    decide (Config.minMatch ≤ len ∧ len ≤ Config.maxMatch ∧ 1 ≤ off ∧ off ≤ Config.window)

/-- How many bytes a block produces. -/
def Block.produces : Block → Nat
  | .lit bytes => bytes.length
  | .copy _ len => len

/-- Every copy of a block list refers only to bytes already produced (R101, R160 (d)), `dst` being produced before it. -/
def copiesInside : Nat → List Block → Bool
  | _, [] => true
  | dst, .lit bytes :: bs => copiesInside (dst + bytes.length) bs
  | dst, .copy off len :: bs => decide (off ≤ dst) && copiesInside (dst + len) bs

/-- The parse of R152 from position `src`, at most `k` blocks. -/
def parseFrom (inp : List Byte) : Nat → Nat → List Block
  | 0, _ => []
  | k + 1, src =>
    if src < inp.length then
      let m := matchAt inp src
      if profitable m.len then .copy m.off m.len :: parseFrom inp k (src + m.len)
      else
        let run := (litRun inp src m).1
        .lit ((inp.drop src).take run) :: parseFrom inp k (src + run)
    else []

/-- The blocks of an input (R158). -/
def parse (inp : List Byte) : List Block := parseFrom inp inp.length 0

/-- The control byte of a group, the tag of its `j`-th block at bit `j`, unused bits 0 (R91). -/
def tagByte : Nat → List Block → Byte
  | _, [] => 0
  | j, b :: bs => (BitVec.ofBool b.tag).setWidth 8 <<< j ||| tagByte (j + 1) bs

/-- A group: its control byte, then the bodies of its blocks (R90). -/
def groupBytes (bs : List Block) : List Byte := tagByte 0 bs :: bs.flatMap Block.body

/-- The stream of a block list, groups of eight, the last one possibly smaller (R90), at most `k` groups. -/
def packFrom : Nat → List Block → List Byte
  | 0, _ => []
  | _ + 1, [] => []
  | k + 1, b :: bs =>
    groupBytes ((b :: bs).take Config.tagsPerCtrl) ++ packFrom k ((b :: bs).drop Config.tagsPerCtrl)

/-- The stream of a block list (R90). -/
def pack (bs : List Block) : List Byte := packFrom bs.length bs

/-- `compress(bytes) -> bytes` (R3, R158). -/
def pureCompress (inp : List Byte) : List Byte := pack (parse inp)

/-! ### DECOMPRESS: explicit tag list, output as a growing list -/

/-- The eight tags of a control byte, least significant first (R91). -/
def tagsOf (b : Byte) : List Bool := (List.range 8).map b.getLsbD

/-- Replay `len` bytes, each the one `off` before the end of what has been produced (R185). -/
def replay (off : Nat) : Nat → List Byte → List Byte
  | 0, out => out
  | k + 1, out => replay off k (out ++ [out.getD (out.length - off) 0])

/-- Offset and length of a copy (R96). -/
def copyOperands : Instr → Option (Nat × Nat)
  | .copyShort offset c => some (offset.toNat, copyLength (countShort c))
  | .copyLong offset h ext => some (offset.toNat, copyLength (countLong h ext))
  | .ctrl _ => none
  | .literal _ => none
  | .predA => none
  | .predB => none
  | .predC => none
  | .filterRow _ _ => none
  | .filterImage => none
  | .compress => none
  | .decompress => none

/-- One copy block on the produced bytes (R185, R212, R213). -/
def pureCopy (l off len : Nat) (out : List Byte) : Except Cause (List Byte) :=
  if off < 1 ∨ out.length < off then .error .decCopySourceRange
  else if l < out.length + len then .error .decCopyDestRange
  else .ok (replay off len out)

/-- One block body on the produced bytes: the produced bytes and the rest of the input, or a cause (R182 to R185, R217). -/
def pureBlock (l : Nat) (tag : Bool) (inp out : List Byte) : Except Cause (List Byte × List Byte) :=
  match decode Config.defaultParams (bodySlot tag) inp with
  | .error _ => .error .decInputExhausted
  | .ok (.literal payload, rest) =>
    if l < out.length + payload.length then .error .decLiteralDestRange else .ok (out ++ payload, rest)
  | .ok (i, rest) =>
    match copyOperands i with
    | none => .error .decInputExhausted
    | some (off, len) =>
      match pureCopy l off len out with
      | .error c => .error c
      | .ok out' => .ok (out', rest)

/-- The loop of R187 with the tags still held as a list (R181): at most `k` control bytes and blocks. -/
def pureLoop (l : Nat) : Nat → List Bool → List Byte → List Byte → Except Cause (List Byte)
  | 0, _, _, out => .ok out
  | k + 1, tags, inp, out =>
    if out.length < l then
      match tags with
      | [] =>
        match inp with
        | [] => .error .decInputExhausted
        | b :: rest => pureLoop l k (tagsOf b) rest out
      | t :: ts =>
        match pureBlock l t inp out with
        | .error c => .error c
        | .ok (out', rest) => pureLoop l k ts rest out'
    else .ok out

/-- `decompress(bytes, expectedLength) -> bytes` (R3, R187). -/
def pureDecompress (inp : List Byte) (l : Nat) : Except Cause (List Byte) := pureLoop l (inp.length + 1) [] inp []

/-! ### FILTER_IMAGE -/

/-- The choice of R126 from the three costs: A unless B is strictly cheaper, then C if strictly cheaper still. -/
def selectPred (costA costB costC : Nat) : Pred :=
  if costB < costA then (if costC < costB then .c else .b) else (if costC < costA then .c else .a)

/-- `FILTER_ROW` as a function (R129): the predictor and the residual row; no row above on row 0 (R127). -/
def pureRow (prev : Option (List Byte)) (cur : List Byte) : Pred × List Byte :=
  match prev with
  | none => (.a, residualA cur)
  | some up =>
    match selectPred (costFor .a (residualA cur)) (costFor .b (residualB up cur)) (costFor .c (residualC up cur)) with
    | .a => (.a, residualA cur)
    | .b => (.b, residualB up cur)
    | .c => (.c, residualC up cur)

/-- Row `r` of a pixel buffer (R61). -/
def rowOf (stride : Nat) (pix : List Byte) (r : Nat) : List Byte := (pix.drop (r * stride)).take stride

/-- The predictor and residual row of row `r` (R130: from original samples only). -/
def pureRowAt (stride : Nat) (pix : List Byte) (r : Nat) : Pred × List Byte :=
  pureRow (if r = 0 then none else some (rowOf stride pix (r - 1))) (rowOf stride pix r)

/-- `filterImage(pixels, width, height) -> FilteredStream bytes` (R3, R66, R131). -/
def pureFilterImage (p : Params) (w h : BitVec 16) (pix : List Byte) : List Byte :=
  let rows := (List.range h.toNat).map (pureRowAt (w.toNat * Config.pixelSize) pix)
  subHeader p w h ++ (rows.map fun x => idOfPred p x.1) ++ rows.flatMap fun x => x.2

end Sys2Proof.Machine
end

