-- ==== Sys2Proof/Safety.lean ====
section
/-! DEFINITION. What a safe state is, in the terms statements use: the invariant of the machine (R22, R28 to R31, R60) and
which bytes of a space hold a value. -/

namespace Sys2Proof.Machine

open Sys2Proof

/-- A byte of a space that can be read. -/
def Memory.holds (m : Memory) (a : Nat) : Bool :=
  match m.read a with
  | .ok _ => true
  | .error _ => false

/-- Every byte below `k` can be read. -/
abbrev Memory.Filled (m : Memory) (k : Nat) : Prop := ∀ a, a < k → m.holds a = true

/-- The status registers agree with one another (R22, R251): no `done` or `fault` while busy, never both, the fault code is 0
exactly when `fault = 0`, and an unspecified `out_len` is within its 32 bits. -/
abbrev Status.Coherent (st : Status) : Prop :=
  (st.busy = true → st.done = false ∧ st.fault = false) ∧ ¬ (st.done = true ∧ st.fault = true) ∧
    (st.fault = false ↔ st.faultCode = 0) ∧ (st.done = false → st.outLen < 2 ^ 32)

/-- `FLT`: spaces in canonical form, and while busy the ranges of R25, R60 and R131. -/
abbrev fltInv (f : Flt) : Prop :=
  f.st.Coherent ∧ f.pix.wf = true ∧ f.fs.wf = true ∧
    (f.st.busy = true →
      f.w ≠ 0 ∧ f.h ≠ 0 ∧ f.pix.size = f.h.toNat * fltStride f ∧ f.fs.size = fltLength f ∧ f.row ≤ f.h.toNat ∧
        (f.phase ≠ .predictor .a → f.row < f.h.toNat ∧ f.res.length = fltStride f) ∧
        (f.phase = .predictor .b ∨ f.phase = .predictor .c → 0 < f.row))

/-- The one byte by which a literal run shorter than 255 may exceed its own length, lent until the copy or the end that
follows it (R74): due unless `src` stands where a literal would begin. -/
def encSlack (e : Enc) : Nat :=
  match e.inp.readRange e.n 0 with
  | .ok inp => if e.src < e.n ∧ (matchAt inp e.src).len < Config.minMatch then 0 else 1
  | .error _ => 1

/-- The bound of R74 between two moves, eight times over: bytes written and queued, with a control byte for every eight
blocks, against the input consumed. -/
abbrev encWithinCapacity (e : Enc) : Prop :=
  8 * (e.wp + e.q.length) + e.nq ≤ 9 * e.src + 8 * (e.src / Config.maxLiteral + encSlack e)

/-- `ENC`: spaces in canonical form, `out_len` within its 32 bits, and while busy the ranges of R28 and R29 between two moves
and the bound of R74 on what has been written and queued; unused bits of the tag accumulator are 0 (R91). -/
abbrev encInv (e : Enc) : Prop :=
  e.st.Coherent ∧ e.inp.wf = true ∧ e.out.wf = true ∧ e.st.outLen < 2 ^ 32 ∧
    (e.st.busy = true →
      e.n ≤ Config.maxLen ∧ e.inp.size = e.n ∧ e.out.size = encCapacity e.n ∧ e.src ≤ e.n ∧ e.nq < 8 ∧
        e.q.length ≤ 256 * e.nq ∧ e.acc.toNat < 2 ^ e.nq ∧ encWithinCapacity e)

/-- `DEC`: spaces in canonical form, `out_len` within its 32 bits, and while busy the ranges of R31; the tag register always has its sentinel, and every
output byte below `dst` has been written. -/
abbrev decInv (d : Dec) : Prop :=
  d.st.Coherent ∧ d.inp.wf = true ∧ d.out.wf = true ∧ d.st.outLen < 2 ^ 32 ∧
    (d.st.busy = true →
      d.m ≤ Config.maxLen ∧ d.l ≤ Config.maxLen ∧ d.inp.size = d.m ∧ d.out.size = d.l ∧ d.ip ≤ d.m ∧ d.dst ≤ d.l ∧
        2 ≤ d.ctrl.toNat ∧ d.out.Filled d.dst)

/-- The machine's invariant. -/
abbrev State.Inv (s : State) : Prop := s.params.Distinct ∧ fltInv s.flt ∧ encInv s.enc ∧ decInv s.dec

/-! ### Terms the statements use -/

/-- Two states agree on everything outside `FLT`. -/
abbrev SameBesidesFlt (s t : State) : Prop :=
  t.params = s.params ∧ t.enc = s.enc ∧ t.dec = s.dec ∧ t.host = s.host

/-- Two states agree on everything outside `ENC`. -/
abbrev SameBesidesEnc (s t : State) : Prop :=
  t.params = s.params ∧ t.flt = s.flt ∧ t.dec = s.dec ∧ t.host = s.host

/-- Two states agree on everything outside `DEC`. -/
abbrev SameBesidesDec (s t : State) : Prop :=
  t.params = s.params ∧ t.flt = s.flt ∧ t.enc = s.enc ∧ t.host = s.host

/-- Every byte outside `[lo, lo + len)` reads as before. -/
def Memory.SameOutside (before after : Memory) (lo len : Nat) : Prop :=
  ∀ a, a < lo ∨ lo + len ≤ a → after.read a = before.read a

/-- `DEC` has taken the fault with this code: status as `raise` leaves it (R214), arguments and input stay, nothing outside
`DEC` changes. The output, which R214 leaves unspecified, has no byte with a value: the model's choice (log 4). -/
def DecFaulted (code : BitVec 3) (s t : State) : Prop :=
  SameBesidesDec s t ∧ t.dec.st.busy = false ∧ t.dec.st.fault = true ∧ t.dec.st.faultCode = code ∧
    t.dec.st.done = false ∧ (∀ a, t.dec.out.holds a = false) ∧ t.dec.m = s.dec.m ∧ t.dec.l = s.dec.l ∧
    t.dec.inp = s.dec.inp

/-- It is this engine's turn in `s`, because the host's next action leaves the move to it or because no action is pending and
no engine that would go before it is busy; `t` is `s` with that action taken off the list (log 6). -/
abbrev TurnOf (e : Engine) (s t : State) : Prop :=
  (s.host = .move e :: t.host ∧ t = { s with host := t.host }) ∨
    (s.host = [] ∧ t = s ∧ (e ≠ .flt → s.flt.st.busy = false) ∧ (e = .dec → s.enc.st.busy = false))

/-- The engine an instruction belongs to (R1, R98). -/
def engineOf : Instr → Engine
  | .ctrl _ => .dec
  | .literal _ => .dec
  | .copyShort _ _ => .dec
  | .copyLong _ _ _ => .dec
  | .predA => .flt
  | .predB => .flt
  | .predC => .flt
  | .filterRow _ _ => .flt
  | .filterImage => .flt
  | .compress => .enc
  | .decompress => .dec

/-- The engine a host action concerns as its target. -/
def HostOp.target : HostOp → Engine
  | .fill e _ => e
  | .argsFlt _ _ => .flt
  | .argsEnc _ => .enc
  | .argsDec _ _ => .dec
  | .start e => e
  | .invoke c => engineOf c.instr
  | .move e => e
  | .reset e => e
  | .handOver _ e => e

/-- The host actions that begin a command on an engine or reset it: the only ones that clear its status (R22, R240). -/
def HostOp.restarts : HostOp → Bool
  | .fill _ _ => false
  | .argsFlt _ _ => false
  | .argsEnc _ => false
  | .argsDec _ _ => false
  | .start _ => true
  | .invoke (.filterRow _ _) => false
  | .invoke .filterImage => true
  | .invoke .compress => true
  | .invoke .decompress => true
  | .move _ => false
  | .reset _ => true
  | .handOver _ _ => false

/-- The host actions that write a space or an argument register (R252). -/
def HostOp.writes : HostOp → Bool
  | .fill _ _ => true
  | .argsFlt _ _ => true
  | .argsEnc _ => true
  | .argsDec _ _ => true
  | .start _ => false
  | .invoke _ => false
  | .move _ => false
  | .reset _ => false
  | .handOver _ _ => true

end Sys2Proof.Machine
end

