-- ==== Sys2Proof/Certificates/Slice0/Obligations.lean ====
section
/-! DEFINITION. The statements about the machine, from the numbered rules of the spec. Statements about an instruction give its
next state as an equation wherever the rules fix it, so that what stays unchanged is said with what changes. -/

open Sys2Proof Sys2Proof.Machine

/-! ### Encodings -/

/-- Decode and encode agree (R91, R92, R94, R95, R97, R102): for every well-formed instruction that has an encoding, whatever
bytes follow it. -/
def Obligations.DecodeEncodedInstruction : Prop :=
  ∀ (p : Params) (i : Instr) (slot : Slot) (rest : List Byte),
    p.Distinct → i.wf = true → i.slot = some slot → decode p slot (encode p i ++ rest) = .ok (i, rest)

/-- The other direction: what decodes is well formed, belongs to its slot, and its encoding is the bytes read (R97, R98). -/
def Obligations.EncodeDecodedBytes : Prop :=
  ∀ (p : Params) (slot : Slot) (bytes rest : List Byte) (i : Instr),
    decode p slot bytes = .ok (i, rest) → i.wf = true ∧ i.slot = some slot ∧ encode p i ++ rest = bytes

/-- Words written out in the spec decode to the blocks they stand for: R91's group, R92's literal, the examples of R94 and
R95, and the default ids of R102 (PRESUMED, log 1). -/
def Obligations.SpecWordsDecode : Prop :=
  let p := Config.defaultParams
  decode p .control [0xAA] = .ok (.ctrl 0xAA, []) ∧
    decode p .literalBody [0x03, 0x61, 0x62, 0x63] = .ok (.literal [0x61, 0x62, 0x63], []) ∧
    decode p .copyBody [0x48, 0x00] = .ok (.copyShort 4 0, []) ∧
    decode p .copyBody [0xA8, 0x00] = .ok (.copyShort 10 0, []) ∧
    decode p .copyBody [0xBF, 0x00] = .ok (.copyShort 11 7, []) ∧
    decode p .copyBody [0x10, 0x00, 0x1B] = .ok (.copyLong 1 0 0x1B, []) ∧
    decode p .copyBody [0x17, 0x00, 0xFF] = .ok (.copyLong 1 7 0xFF, []) ∧
    decode p .copyBody [0xC0, 0x00, 0x08] = .ok (.copyLong 12 0 0x08, []) ∧
    decode p .predictorId [0x01] = .ok (.predA, []) ∧
    decode p .predictorId [0x02] = .ok (.predB, []) ∧ decode p .predictorId [0x04] = .ok (.predC, [])

/-- Every copy word decodes, as exactly the form its bit 3 selects, with the operands of R96 in arithmetic terms:
`offset = word >> 4`, `count = word & 7`, folded with the third byte in the long form, `length = count + 4`. -/
def Obligations.CopyWordOperands : Prop :=
  ∀ (p : Params) (lo hi ext : Byte) (rest : List Byte),
    let w := lo.toNat + 256 * hi.toNat
    (w / 8 % 2 = 1 →
        ∃ off c, decode p .copyBody (lo :: hi :: ext :: rest) = .ok (.copyShort off c, ext :: rest) ∧
          copyOperands (.copyShort off c) = some (w / 16, w % 8 + 4)) ∧
      (w / 8 % 2 = 0 →
        ∃ off h, decode p .copyBody (lo :: hi :: ext :: rest) = .ok (.copyLong off h ext, rest) ∧
          copyOperands (.copyLong off h ext) = some (w / 16, w % 8 * 256 + ext.toNat + 4))

/-- The body `EMIT_COPY` writes (R155) is read back as the same offset and length (R96), two bytes exactly up to length 11. -/
def Obligations.CopyBodyReadBack : Prop :=
  ∀ (p : Params) (off len : Nat) (rest : List Byte),
    4 ≤ len → len ≤ 2051 → 1 ≤ off → off ≤ 4095 →
      (copyBody off len).length = (if len ≤ 11 then 2 else 3) ∧
        ∃ i, decode p .copyBody (copyBody off len ++ rest) = .ok (i, rest) ∧ i.canonical = true ∧
          copyOperands i = some (off, len)

/-! ### What a step runs -/

/-- A step in which `DEC` moves runs the instruction that the bytes at `ip` decode to (R97, R180, R186): at the loop test the
tag register is shifted first, and a control byte is due exactly when the shift leaves the sentinel alone; after a control
byte the body its first tag selects is run with no further shift. `DEC` moves when the host's next action leaves it to, or
when no host action is pending and neither other engine is busy (the order of the engines and the cut of `NEXT_TAG` into a
shift and a reload are the model's, log 6 and log 13). -/
def Obligations.StepRunsDecodedBlock : Prop :=
  ∀ (s t : State) (ops : List HostOp) (i : Instr) (rest : List Byte),
    s.dec.st.busy = true →
      ((s.host = [] ∧ s.flt.st.busy = false ∧ s.enc.st.busy = false ∧ t = s) ∨
        (s.host = .move .dec :: ops ∧ t = { s with host := ops })) →
        let c := ctrlShift s.dec.ctrl
        let bytes := s.dec.inp.stream (s.dec.m - s.dec.ip) s.dec.ip
        (s.dec.phase = .loop → s.dec.dst < s.dec.l →
            decode s.params (if c = 1 then .control else bodySlot (ctrlTag c)) bytes = .ok (i, rest) →
            step s = exec i { t with dec := { s.dec with ctrl := c } }) ∧
          (s.dec.phase = .body → decode s.params (bodySlot (ctrlTag s.dec.ctrl)) bytes = .ok (i, rest) →
            step s = exec i t)

/-- A step in which `FLT` moves runs the predictor its row loop is at (R129, R131; log 10), and a step whose host action issues
a command runs that command (R3; log 5, log 6). -/
def Obligations.StepRunsPredictorOrCommand : Prop :=
  (∀ (s t : State) (ops : List HostOp) (x : Pred),
      s.flt.st.busy = true → s.flt.phase = .predictor x → (x = .a → s.flt.row < s.flt.h.toNat) →
        ((s.host = [] ∧ t = s) ∨ (s.host = .move .flt :: ops ∧ t = { s with host := ops })) →
          step s = exec x.instr t) ∧
    ∀ (s : State) (ops : List HostOp) (c : Command),
      s.host = .invoke c :: ops → step s = exec c.instr { s with host := ops }

/-- With no host action pending and no engine busy nothing happens (R219: "The engine does nothing further until the host
writes `start` again"; the host's list is the model's, log 6). -/
def Obligations.IdleMachineWaits : Prop :=
  ∀ s : State, s.host = [] → s.flt.st.busy = false → s.enc.st.busy = false → s.dec.st.busy = false → step s = .next s

/-! ### DEC -/

/-- `CTRL` reloads the tag register with the control byte under a new sentinel and moves past it (R180; `phase` is the model's
own, log 13). -/
def Obligations.ControlByteReloadsTags : Prop :=
  ∀ (s : State) (tags : Byte), s.dec.ip < s.dec.m →
    ∃ ctrl : BitVec 9, ctrl.toNat = 256 + tags.toNat ∧
      exec (.ctrl tags) s = .next { s with dec := { s.dec with ip := s.dec.ip + 1, ctrl := ctrl, phase := .body } }

/-- The trace of R181: after the reload and `j` shifts the register is `2^(8-j) + b / 2^j`, the tag shown is bit `j` of the
control byte for `j < 8`, the register shows empty exactly at the ninth, and the initial value 2 is empty after one shift. -/
def Obligations.ControlByteGivesEightTags : Prop :=
  (∀ (b : Byte) (j : Nat), j ≤ 8 →
      (ctrlShift^[j] (ctrlReload b)).toNat = 2 ^ (8 - j) + b.toNat / 2 ^ j ∧
        (j < 8 → ctrlTag (ctrlShift^[j] (ctrlReload b)) = b.getLsbD j) ∧
        (ctrlEmpty (ctrlShift^[j] (ctrlReload b)) = true ↔ j = 8)) ∧
    ctrlEmpty (ctrlShift Config.ctrlSentinelInit) = true

/-- `LITERAL` moves its bytes to the output at `dst` and changes nothing else but `ip`, `dst` and the temporary length
(R182, R32). Every count 0..255 is covered, 0 included (R99). That the temporary length is written and that `phase` exists is
the model's reading (log 11, log 13). -/
def Obligations.LiteralExecutes : Prop :=
  ∀ (s : State) (payload : List Byte),
    s.dec.ip + 1 + payload.length ≤ s.dec.m → s.dec.dst + payload.length ≤ s.dec.l →
      s.dec.dst + payload.length ≤ s.dec.out.size →
        ∃ out : Memory,
          exec (.literal payload) s =
              .next
                { s with
                  dec :=
                    { s.dec with
                      ip := s.dec.ip + (1 + payload.length), dst := s.dec.dst + payload.length, out := out,
                      length := BitVec.ofNat 12 payload.length, phase := .loop } } ∧
            out.size = s.dec.out.size ∧
            (∀ k (hk : k < payload.length), out.read (s.dec.dst + k) = .ok payload[k]) ∧
            s.dec.out.SameOutside out s.dec.dst payload.length

/-- `COPY_SHORT` (R183, R185): the copied bytes repeat the `offset`-byte pattern that stood before `dst`, also when the offset
is smaller than the length, and nothing else changes but `ip`, `dst`, the temporaries and the model's `phase` (log 13). -/
def Obligations.CopyShortExecutes : Prop :=
  ∀ (s : State) (offset : BitVec 12) (c : BitVec 3),
    let len := c.toNat + 4
    s.dec.ip + 2 ≤ s.dec.m → 1 ≤ offset.toNat → offset.toNat ≤ s.dec.dst → s.dec.dst + len ≤ s.dec.l →
      s.dec.dst + len ≤ s.dec.out.size →
        (∀ a, s.dec.dst - offset.toNat ≤ a → a < s.dec.dst → s.dec.out.holds a = true) →
          ∃ (out : Memory) (word : Word),
            exec (.copyShort offset c) s =
                .next
                  { s with
                    dec :=
                      { s.dec with
                        ip := s.dec.ip + 2, dst := s.dec.dst + len, out := out, word := word, count := c.setWidth 11,
                        offset := offset, length := BitVec.ofNat 12 len, phase := .loop } } ∧
              word.toNat = offset.toNat * 16 + 8 + c.toNat ∧ out.size = s.dec.out.size ∧
              (∀ k, k < len →
                out.read (s.dec.dst + k) = s.dec.out.read (s.dec.dst - offset.toNat + k % offset.toNat)) ∧
              s.dec.out.SameOutside out s.dec.dst len

/-- `COPY_LONG` (R184, R185), counts 0..7 included (R99): as `COPY_SHORT`, with the 11-bit count (log 13). -/
def Obligations.CopyLongExecutes : Prop :=
  ∀ (s : State) (offset : BitVec 12) (h : BitVec 3) (ext : Byte),
    let len := h.toNat * 256 + ext.toNat + 4
    s.dec.ip + 3 ≤ s.dec.m → 1 ≤ offset.toNat → offset.toNat ≤ s.dec.dst → s.dec.dst + len ≤ s.dec.l →
      s.dec.dst + len ≤ s.dec.out.size →
        (∀ a, s.dec.dst - offset.toNat ≤ a → a < s.dec.dst → s.dec.out.holds a = true) →
          ∃ (out : Memory) (word : Word) (count : BitVec 11),
            exec (.copyLong offset h ext) s =
                .next
                  { s with
                    dec :=
                      { s.dec with
                        ip := s.dec.ip + 3, dst := s.dec.dst + len, out := out, word := word, count := count,
                        offset := offset, length := BitVec.ofNat 12 len, phase := .loop } } ∧
              word.toNat = offset.toNat * 16 + h.toNat ∧ count.toNat = h.toNat * 256 + ext.toNat ∧
              out.size = s.dec.out.size ∧
              (∀ k, k < len →
                out.read (s.dec.dst + k) = s.dec.out.read (s.dec.dst - offset.toNat + k % offset.toNat)) ∧
              s.dec.out.SameOutside out s.dec.dst len

/-- The faults of the stream instructions, in the order of R217: missing input first, then a copy's source range, then the
destination range. Each leaves the status as R214 says; that no output byte then has a value is the model's choice for what
R214 and U1 leave unspecified (log 4). -/
def Obligations.BlockFaultsInOrder : Prop :=
  (∀ (s : State) (i : Instr), i.slot = some .control ∨ i.slot = some .literalBody ∨ i.slot = some .copyBody →
      s.dec.m < s.dec.ip + i.size → ∃ t, exec i s = .next t ∧ DecFaulted 1 s t) ∧
    (∀ (s : State) (i : Instr) (off len : Nat), copyOperands i = some (off, len) → s.dec.ip + i.size ≤ s.dec.m →
      (off = 0 ∨ s.dec.dst < off → ∃ t, exec i s = .next t ∧ DecFaulted 2 s t) ∧
        (1 ≤ off → off ≤ s.dec.dst → s.dec.l < s.dec.dst + len → ∃ t, exec i s = .next t ∧ DecFaulted 3 s t)) ∧
    ∀ (s : State) (payload : List Byte), s.dec.ip + (1 + payload.length) ≤ s.dec.m →
      s.dec.l < s.dec.dst + payload.length → ∃ t, exec (.literal payload) s = .next t ∧ DecFaulted 4 s t

/-- Missing input met by a step (R211): when a control byte is due and none is left, or the body the tag selects is not there
as a whole, the step takes `DEC_INPUT_EXHAUSTED` (status as R214 says). Whose turn it is is log 6, the cut of `NEXT_TAG` log 13,
and that no output byte has a value after the fault is log 4 (R214 and U1 leave it unspecified). -/
def Obligations.MissingInputFaults : Prop :=
  ∀ (s t : State) (why : DecodeError),
    s.dec.st.busy = true → TurnOf .dec s t → s.dec.inp.Filled s.dec.m → s.dec.ip ≤ s.dec.m →
      let c := ctrlShift s.dec.ctrl
      let bytes := s.dec.inp.stream (s.dec.m - s.dec.ip) s.dec.ip
      ((s.dec.phase = .loop ∧ s.dec.dst < s.dec.l ∧
            decode s.params (if c = 1 then .control else bodySlot (ctrlTag c)) bytes = .error why) ∨
          (s.dec.phase = .body ∧ decode s.params (bodySlot (ctrlTag s.dec.ctrl)) bytes = .error why)) →
        ∃ v, step s = .next v ∧ DecFaulted 1 t v

/-- The end of `DECOMPRESS` (R187, R188): at the loop test with `dst` at `L` the step ends the command well, whatever bytes and
tags are left; the output space stays and `out_len` is `L` (whose turn it is is log 6). -/
def Obligations.LoopEndsAtOutputLength : Prop :=
  ∀ s t : State,
    s.dec.st.busy = true → TurnOf .dec s t → s.dec.phase = .loop → s.dec.dst = s.dec.l →
      ∃ v, step s = .next v ∧ SameBesidesDec t v ∧ v.dec.st.busy = false ∧ v.dec.st.done = true ∧
        v.dec.st.fault = false ∧ v.dec.st.outLen = s.dec.l ∧ v.dec.out = s.dec.out ∧ v.dec.inp = s.dec.inp ∧
        v.dec.m = s.dec.m ∧ v.dec.l = s.dec.l

/-- `DECOMPRESS` is the pure function of the input bytes and the output length (R3, R187, R191; decision D1): it ends, with
exactly that function's bytes as the observable output or that function's fault code, and touches nothing outside `DEC`. -/
def Obligations.DecompressMatchesPureFunction : Prop :=
  ∀ (s : State) (bytes : List Byte),
    s.dec.st.busy = false → s.dec.m ≤ Config.maxLen → s.dec.l ≤ Config.maxLen → s.dec.inp.size = s.dec.m →
      s.dec.inp.readRange s.dec.m 0 = .ok bytes →
        ∃ t, exec .decompress s = .next t ∧ SameBesidesDec s t ∧ t.dec.m = s.dec.m ∧ t.dec.l = s.dec.l ∧
          t.dec.inp = s.dec.inp ∧ t.dec.st.busy = false ∧
          match pureDecompress bytes s.dec.l with
          | .ok out => t.dec.st.done = true ∧ t.dec.st.outLen = s.dec.l ∧ observe t .dec = .ok (.ok out)
          | .error cause => t.dec.st.done = false ∧ observe t .dec = .ok (.failed (faultCodeOf cause))

/-- A successful `DECOMPRESS` has written exactly `L` bytes (R187). -/
def Obligations.DecompressWritesWholeOutput : Prop :=
  ∀ (bytes out : List Byte) (l : Nat), pureDecompress bytes l = .ok out → out.length = l

/-- What `DECOMPRESS` does not read (R100, R188): bytes after the block that completes the output change nothing. -/
def Obligations.TrailingBytesIgnored : Prop :=
  ∀ (bytes extra out : List Byte) (l : Nat),
    pureDecompress bytes l = .ok out → pureDecompress (bytes ++ extra) l = .ok out

/-- A busy `DEC` in a state that meets the invariant, its input filled, always moves to a next state: no access ever leaves a
space or meets an unwritten byte (R12, R185: "every read address ... already written"). -/
def Obligations.DecompressorNeverStops : Prop :=
  ∀ s : State, s.dec.st.busy = true → decInv s.dec → s.dec.inp.Filled s.dec.m → ∃ t, engineTurn .dec s = .next t

/-! ### FLT -/

/-- The three residual rows, byte by byte (R121, R122, R123): A is left neighbour minus sample, B sample above minus sample, C
sample minus the floor of the average of left and above, each mod 256; A and C copy the first pixel verbatim, B copies
nothing. -/
def Obligations.ResidualRowsFollowFormulas : Prop :=
  (∀ (cur : List Byte) (i : Nat), 3 ≤ cur.length → i < cur.length →
      (residualA cur)[i]?.map BitVec.toNat =
        some
          (if i < 3 then (cur.getD i 0).toNat
          else ((256 + (cur.getD (i - 3) 0).toNat - (cur.getD i 0).toNat) % 256))) ∧
    (∀ (prev cur : List Byte) (i : Nat), prev.length = cur.length → i < cur.length →
      (residualB prev cur)[i]?.map BitVec.toNat =
        some ((256 + (prev.getD i 0).toNat - (cur.getD i 0).toNat) % 256)) ∧
    (∀ (prev cur : List Byte) (i : Nat), 3 ≤ cur.length → prev.length = cur.length → i < cur.length →
      (residualC prev cur)[i]?.map BitVec.toNat =
        some
          (if i < 3 then (cur.getD i 0).toNat
          else
            ((256 + (cur.getD i 0).toNat - ((cur.getD (i - 3) 0).toNat + (prev.getD i 0).toNat) / 2) % 256))) ∧
    (∀ cur : List Byte, 3 ≤ cur.length → (residualA cur).length = cur.length) ∧
    (∀ prev cur : List Byte, prev.length = cur.length → (residualB prev cur).length = cur.length) ∧
    ∀ prev cur : List Byte, 3 ≤ cur.length → prev.length = cur.length → (residualC prev cur).length = cur.length

/-- The cost of a candidate (R125): the sum of the magnitudes of its residual bytes, the first three left out for A and C and
none for B, exact and at most 127 a byte. -/
def Obligations.CostSumsMagnitudes : Prop :=
  ∀ res : List Byte,
    costFor .a res = ((res.drop 3).map mag).sum ∧ costFor .b res = (res.map mag).sum ∧
      costFor .c res = ((res.drop 3).map mag).sum ∧ ∀ x, costFor x res ≤ 127 * res.length

/-- `PRED_A` (R121): the residual row is the first pixel verbatim, then left neighbour minus sample mod 256; A becomes best
with its cost (R126, R129). Nothing else changes. That the instruction also enters its candidate in the selection is the
model's reading (log 10). -/
def Obligations.PredictorAExecutes : Prop :=
  ∀ (s : State) (cur : List Byte),
    s.flt.pix.readRange (s.flt.w.toNat * 3) (s.flt.row * (s.flt.w.toNat * 3)) = .ok cur →
      ∃ res : List Byte, res.length = s.flt.w.toNat * 3 ∧
        (∀ i, i < s.flt.w.toNat * 3 →
          (res.getD i 0).toNat =
            if i < 3 then (cur.getD i 0).toNat
            else ((256 + (cur.getD (i - 3) 0).toNat - (cur.getD i 0).toNat) % 256)) ∧
        exec .predA s =
          .next
            { s with
              flt :=
                { s.flt with
                  cand := res, cost := ((res.drop 3).map mag).sum, best := .a, bestCost := ((res.drop 3).map mag).sum,
                  res := res, phase := if s.flt.row = 0 then .record else .predictor .b } }

/-- `PRED_B` (R122): sample above minus sample mod 256, every byte counted in the cost; it replaces the best only when
strictly cheaper (R126). Nothing else changes (log 10 as for `PRED_A`). -/
def Obligations.PredictorBExecutes : Prop :=
  ∀ (s : State) (cur prev : List Byte),
    0 < s.flt.row →
      s.flt.pix.readRange (s.flt.w.toNat * 3) (s.flt.row * (s.flt.w.toNat * 3)) = .ok cur →
        s.flt.pix.readRange (s.flt.w.toNat * 3) ((s.flt.row - 1) * (s.flt.w.toNat * 3)) = .ok prev →
          ∃ res : List Byte, res.length = s.flt.w.toNat * 3 ∧
            (∀ i, i < s.flt.w.toNat * 3 →
              (res.getD i 0).toNat = (256 + (prev.getD i 0).toNat - (cur.getD i 0).toNat) % 256) ∧
            let cost := (res.map mag).sum
            exec .predB s =
              .next
                { s with
                  flt :=
                    if cost < s.flt.bestCost then
                      { s.flt with
                        cand := res, cost := cost, best := .b, bestCost := cost, res := res, phase := .predictor .c }
                    else { s.flt with cand := res, cost := cost, phase := .predictor .c } }

/-- `PRED_C` (R123): the first pixel verbatim, then sample minus the floor of the average of left and above, mod 256; it
replaces the best only when strictly cheaper (R126). Nothing else changes (log 10 as for `PRED_A`). -/
def Obligations.PredictorCExecutes : Prop :=
  ∀ (s : State) (cur prev : List Byte),
    0 < s.flt.row →
      s.flt.pix.readRange (s.flt.w.toNat * 3) (s.flt.row * (s.flt.w.toNat * 3)) = .ok cur →
        s.flt.pix.readRange (s.flt.w.toNat * 3) ((s.flt.row - 1) * (s.flt.w.toNat * 3)) = .ok prev →
          ∃ res : List Byte, res.length = s.flt.w.toNat * 3 ∧
            (∀ i, i < s.flt.w.toNat * 3 →
              (res.getD i 0).toNat =
                if i < 3 then (cur.getD i 0).toNat
                else
                  ((256 + (cur.getD i 0).toNat - ((cur.getD (i - 3) 0).toNat + (prev.getD i 0).toNat) / 2) % 256)) ∧
            let cost := ((res.drop 3).map mag).sum
            exec .predC s =
              .next
                { s with
                  flt :=
                    if cost < s.flt.bestCost then
                      { s.flt with
                        cand := res, cost := cost, best := .c, bestCost := cost, res := res, phase := .record }
                    else { s.flt with cand := res, cost := cost, phase := .record } }

/-- Predictors B and C are not available on row 0 (R122, R123: "requires `r > 0`"): the model gives them no meaning there
(log 24). -/
def Obligations.PredictorsNeedRowAbove : Prop :=
  ∀ s : State, s.flt.row = 0 →
    exec .predB s = .refused .predictorUnavailable ∧ exec .predC s = .refused .predictorUnavailable

/-- `mag` (R124): the magnitude of the byte read as signed 8-bit, −128 mapped to 127, the same for a byte and its negative. -/
def Obligations.MagnitudeOfSignedByte : Prop :=
  ∀ b : Byte, mag b = (if b.toInt = -128 then 127 else b.toInt.natAbs) ∧ mag (-b) = mag b ∧ mag b ≤ 127

/-- `FILTER_ROW` (R129): the id and residual row of the predictor that R126 selects from the three costs, A alone on row 0; no
status bit, space or other engine changes (that the rows stand in `FLT.PIX` and what is latched is the model's reading,
log 9). -/
def Obligations.FilterRowSelects : Prop :=
  ∀ (s : State) (w r : BitVec 16) (cur prev : List Byte),
    s.flt.st.busy = false → w ≠ 0 →
      s.flt.pix.readRange (w.toNat * 3) (r.toNat * (w.toNat * 3)) = .ok cur →
        (r ≠ 0 → s.flt.pix.readRange (w.toNat * 3) ((r.toNat - 1) * (w.toNat * 3)) = .ok prev) →
          let choice := pureRow (if r = 0 then none else some prev) cur
          ∃ t, exec (.filterRow w r) s = .next t ∧ SameBesidesFlt s t ∧ t.flt.id = idOfPred s.params choice.1 ∧
            t.flt.res = choice.2 ∧ t.flt.best = choice.1 ∧ t.flt.bestCost = costFor choice.1 choice.2 ∧
            t.flt.st = s.flt.st ∧ t.flt.pix = s.flt.pix ∧ t.flt.fs = s.flt.fs ∧ t.flt.h = s.flt.h ∧ t.flt.w = w ∧
            t.flt.row = r.toNat

/-- The selection of R126: A unless B is strictly cheaper, then C only if strictly cheaper than that; ties favour A over B
over C. -/
def Obligations.SelectionPrefersEarlier : Prop :=
  ∀ a b c : Nat,
    (selectPred a b c = .a ↔ a ≤ b ∧ a ≤ c) ∧ (selectPred a b c = .b ↔ b < a ∧ b ≤ c) ∧
      (selectPred a b c = .c ↔ c < a ∧ c < b)

/-- On an image one pixel wide every row is predictor A's, the samples themselves (R129: "`W = 1` always returns
`(ID_A, cur)`"). -/
def Obligations.OnePixelRowsUseA : Prop :=
  ∀ (s t : State) (r : BitVec 16), exec (.filterRow 1 r) s = .next t →
    t.flt.id = s.params.idA ∧ s.flt.pix.readRange 3 (r.toNat * 3) = .ok t.flt.res

/-- Row 0 of every image (R127): its id is `ID_A` and its residual row is predictor A's. -/
def Obligations.FirstRowUsesA : Prop :=
  ∀ (s t : State) (cur : List Byte), exec .filterImage s = .next t →
    s.flt.pix.readRange (s.flt.w.toNat * 3) 0 = .ok cur →
      t.flt.fs.read 8 = .ok s.params.idA ∧
        t.flt.fs.readRange (s.flt.w.toNat * 3) (8 + s.flt.h.toNat) = .ok (residualA cur)

/-- `FILTER_IMAGE` writes the FilteredStream of R66 and R131: sub-header, one id a row, the residual rows, all from original
samples (R130). It ends with `done`, touches nothing outside `FLT`, and leaves the image as it was. `out_len` is the length
for every image; that it is a natural number where 32 bits would not hold it is log 12. -/
def Obligations.FilterImageMatchesPureFunction : Prop :=
  ∀ (s : State) (pix : List Byte),
    s.flt.st.busy = false → s.flt.w ≠ 0 → s.flt.h ≠ 0 → s.flt.pix.size = s.flt.h.toNat * (s.flt.w.toNat * 3) →
      s.flt.pix.readRange s.flt.pix.size 0 = .ok pix →
        let len := 8 + s.flt.h.toNat + s.flt.h.toNat * (s.flt.w.toNat * 3)
        ∃ t, exec .filterImage s = .next t ∧ SameBesidesFlt s t ∧ t.flt.pix = s.flt.pix ∧ t.flt.w = s.flt.w ∧
          t.flt.h = s.flt.h ∧ t.flt.st.busy = false ∧ t.flt.st.fault = false ∧ t.flt.st.done = true ∧
          t.flt.fs.size = len ∧
          t.flt.fs.readRange len 0 = .ok (pureFilterImage s.params s.flt.w s.flt.h pix) ∧
          t.flt.st.outLen = len ∧ observe t .flt = .ok (.ok (pureFilterImage s.params s.flt.w s.flt.h pix))

/-- The layout of the FilteredStream (R66, R67): length, sub-header bytes in little-endian order, one id a row from offset 8,
then the residual rows. -/
def Obligations.FilteredStreamLayout : Prop :=
  ∀ (p : Params) (w h : BitVec 16) (pix : List Byte), pix.length = h.toNat * (w.toNat * 3) →
    let fs := pureFilterImage p w h pix
    let stride := w.toNat * 3
    fs.length = 8 + h.toNat + h.toNat * stride ∧ fs[0]? = some p.reserved0 ∧ fs[1]? = some p.reserved1 ∧
      fs[2]? = some 0x18 ∧ fs[3]? = some 0 ∧ fs[4]? = some (BitVec.ofNat 8 (w.toNat % 256)) ∧
      fs[5]? = some (BitVec.ofNat 8 (w.toNat / 256)) ∧ fs[6]? = some (BitVec.ofNat 8 (h.toNat % 256)) ∧
      fs[7]? = some (BitVec.ofNat 8 (h.toNat / 256)) ∧
      ∀ r, r < h.toNat →
        fs[8 + r]? = some (idOfPred p (pureRowAt stride pix r).1) ∧
          ∀ i, i < stride → fs[8 + h.toNat + r * stride + i]? = (pureRowAt stride pix r).2[i]?

/-- The end of a row and of `FILTER_IMAGE` (R131, R66): recording a row writes its id and its residual row at their places, no
other output byte, and goes on to the next row; after the last row the command ends with `out_len` the length of R67. Whose
turn it is is log 6, that recording is a move of its own log 10, and that `out_len` is the length also past R22's 32 bits is
the model's choice (log 12). -/
def Obligations.FilterRecordsAndEnds : Prop :=
  (∀ s t : State, s.flt.st.busy = true → TurnOf .flt s t → s.flt.phase = .record → s.flt.row < s.flt.h.toNat →
      let at_ := 8 + s.flt.h.toNat + s.flt.row * (s.flt.w.toNat * 3)
      at_ + s.flt.res.length ≤ s.flt.fs.size →
        ∃ fs : Memory,
          step s =
              .next
                { t with
                  flt :=
                    { s.flt with
                      id := idOfPred s.params s.flt.best, fs := fs, row := s.flt.row + 1, phase := .predictor .a } } ∧
            fs.size = s.flt.fs.size ∧ fs.read (8 + s.flt.row) = .ok (idOfPred s.params s.flt.best) ∧
            fs.readRange s.flt.res.length at_ = .ok s.flt.res ∧
            ∀ a, a ≠ 8 + s.flt.row → a < at_ ∨ at_ + s.flt.res.length ≤ a → fs.read a = s.flt.fs.read a) ∧
    ∀ s t : State,
      s.flt.st.busy = true → TurnOf .flt s t → s.flt.phase = .predictor .a → s.flt.h.toNat ≤ s.flt.row →
        ∃ v, step s = .next v ∧ SameBesidesFlt t v ∧ v.flt.st.busy = false ∧ v.flt.st.done = true ∧
          v.flt.st.fault = false ∧ v.flt.st.outLen = 8 + s.flt.h.toNat + s.flt.h.toNat * (s.flt.w.toNat * 3) ∧
          v.flt.fs = s.flt.fs ∧ v.flt.pix = s.flt.pix ∧ v.flt.w = s.flt.w ∧ v.flt.h = s.flt.h

/-- A busy `FLT` in a state that meets the invariant, its image filled, always moves to a next state (R131, R216). -/
def Obligations.FilterNeverStops : Prop :=
  ∀ s : State, s.flt.st.busy = true → fltInv s.flt → s.flt.pix.Filled s.flt.pix.size →
    ∃ t, engineTurn .flt s = .next t

/-! ### ENC -/

/-- `MATCH` (R150): the result's bytes agree, no candidate of the window agrees longer, and no nearer candidate agrees as
long; offset 0 exactly when nothing matches. -/
def Obligations.MatchIsNearestLongest : Prop :=
  ∀ (inp : List Byte) (p : Nat), p < inp.length →
    let r := matchAt inp p
    let cap := min 2051 (inp.length - p)
    r.len ≤ cap ∧ (r.len = 0 ↔ r.off = 0) ∧ r.off ≤ min p 4095 ∧
      (∀ j, j < r.len → inp[p - r.off + j]? = inp[p + j]?) ∧
      ∀ off l, 1 ≤ off → off ≤ min p 4095 → l ≤ cap → (∀ j, j < l → inp[p - off + j]? = inp[p + j]?) →
        l ≤ r.len ∧ (off < r.off → l < r.len)

/-- `LITRUN` (R153): at least one byte, at most 255, inside the input; no profitable match starts inside the run after its
first byte; and it ends because it is full, the input ends, or a profitable match starts right after it. -/
def Obligations.LiteralRunStops : Prop :=
  ∀ (inp : List Byte) (p : Nat) (last : Match), p < inp.length →
    let run := (litRun inp p last).1
    1 ≤ run ∧ run ≤ 255 ∧ p + run ≤ inp.length ∧
      (∀ k, 1 ≤ k → k < run → (matchAt inp (p + k)).len < 4) ∧
      (run = 255 ∨ p + run = inp.length ∨ 4 ≤ (matchAt inp (p + run)).len)

/-- `PUSH` and `FLUSH` (R156, R157): a block's tag goes to the next free bit and its body to the queue, and the eighth block
flushes; a flush writes the control byte and then the bodies in order, and empties the queue. -/
def Obligations.PushQueuesFlushWrites : Prop :=
  (∀ (e : Enc) (tag : Bool) (body : List Byte), e.nq < 8 → e.acc.toNat < 2 ^ e.nq →
      ∃ acc : Byte, acc.toNat = e.acc.toNat + (if tag then 2 ^ e.nq else 0) ∧
        let g := { e with acc := acc, nq := e.nq + 1, q := e.q ++ body }
        encPush tag body e = if e.nq = 7 then encFlush g else .next g) ∧
    ∀ e : Enc, e.wp + (1 + e.q.length) ≤ e.out.size →
      ∃ out : Memory,
        encFlush e = .next { e with out := out, wp := e.wp + (1 + e.q.length), acc := 0, nq := 0, q := [] } ∧
          out.size = e.out.size ∧ out.read e.wp = .ok e.acc ∧ out.readRange e.q.length (e.wp + 1) = .ok e.q ∧
          e.out.SameOutside out e.wp (1 + e.q.length)

/-- A move of a busy `ENC` (R152, R158): with input left it is the copy of `MATCH(src)` when that is at least 4 long, else the
literal of `LITRUN(src)`; `src` passes the block, and `best_len`, `best_off` hold the last match search: `MATCH(src)` for a
copy, for a literal the search that ended the run or else the one at its last byte (R150, R153). With the input consumed it
flushes a partial group and ends the command. That one `DECIDE` is a move is log 5, whose turn it is log 6. -/
def Obligations.CompressorMoves : Prop :=
  (∀ (s t : State) (inp : List Byte),
      s.enc.st.busy = true → TurnOf .enc s t → s.enc.src < s.enc.n → s.enc.inp.readRange s.enc.n 0 = .ok inp →
        let e := s.enc
        let m := matchAt inp e.src
        let run := (litRun inp e.src m).1
        let last := if run < 255 ∧ e.src + run < e.n then matchAt inp (e.src + run) else matchAt inp (e.src + run - 1)
        (4 ≤ m.len →
            step s =
              onEnc
                (andThen (encPush true (copyBody m.off m.len) { e with bestLen := m.len, bestOff := m.off }) fun g =>
                  .next { g with src := e.src + m.len })
                t) ∧
          (m.len < 4 →
            step s =
              onEnc
                (andThen
                  (encPush false (BitVec.ofNat 8 run :: (inp.drop e.src).take run)
                    { e with bestLen := last.len, bestOff := last.off, run := run })
                  fun g => .next { g with src := e.src + run })
                t)) ∧
    ∀ s t : State,
      s.enc.st.busy = true → TurnOf .enc s t → s.enc.src = s.enc.n →
        (s.enc.nq ≠ 0 → s.enc.wp + (1 + s.enc.q.length) ≤ s.enc.out.size) →
          ∃ v, step s = .next v ∧ SameBesidesEnc t v ∧ v.enc.st.busy = false ∧ v.enc.st.done = true ∧
            v.enc.st.fault = false ∧ v.enc.n = s.enc.n ∧ v.enc.inp = s.enc.inp ∧
            (s.enc.nq = 0 → v.enc.st.outLen = s.enc.wp ∧ v.enc.out = s.enc.out) ∧
            (s.enc.nq ≠ 0 →
              v.enc.st.outLen = s.enc.wp + (1 + s.enc.q.length) ∧ v.enc.out.size = s.enc.out.size ∧
                v.enc.out.read s.enc.wp = .ok s.enc.acc ∧
                v.enc.out.readRange s.enc.q.length (s.enc.wp + 1) = .ok s.enc.q ∧
                s.enc.out.SameOutside v.enc.out s.enc.wp (1 + s.enc.q.length))

/-- A busy `ENC` in a state that meets the invariant, its input filled, always moves to a next state: what it has written and
queued fits the output space (R74; its size is log 14). -/
def Obligations.CompressorNeverStops : Prop :=
  ∀ s : State, s.enc.st.busy = true → encInv s.enc → s.enc.inp.Filled s.enc.n → ∃ t, engineTurn .enc s = .next t

/-- `COMPRESS` writes the stream of R90 for the blocks of R152 (R158): the deferred-write queue gives exactly the groups of
eight, control byte first (R245). It ends with `done` and touches nothing outside `ENC`. -/
def Obligations.CompressMatchesPureFunction : Prop :=
  ∀ (s : State) (bytes : List Byte),
    s.enc.st.busy = false → s.enc.n ≤ Config.maxLen → s.enc.inp.size = s.enc.n →
      s.enc.inp.readRange s.enc.n 0 = .ok bytes →
        ∃ t, exec .compress s = .next t ∧ SameBesidesEnc s t ∧ t.enc.n = s.enc.n ∧ t.enc.inp = s.enc.inp ∧
          t.enc.st.busy = false ∧ t.enc.st.done = true ∧ t.enc.st.outLen = (pureCompress bytes).length ∧
          observe t .enc = .ok (.ok (pureCompress bytes))

/-- The blocks of an input are canonical (R101): literals of 1..255 bytes, copies of length 4..2051 and offset 1..4095 that
refer only to bytes already produced, the short form exactly for lengths up to 11; and together they produce the input's
length. -/
def Obligations.BlocksAreCanonical : Prop :=
  ∀ inp : List Byte,
    (parse inp).all Block.canonical = true ∧ copiesInside 0 (parse inp) = true ∧
      ((parse inp).map Block.produces).sum = inp.length ∧
      ∀ off len, .copy off len ∈ parse inp → ((copyBody off len).length = 2 ↔ len ≤ 11)

/-- Empty input (R159): "Empty input yields empty output with no control byte at all", so `done` and `out_len` 0. That no byte
of the output space holds a value, where U9 leaves any value beyond `out_len`, is the model's choice (log 4). -/
def Obligations.EmptyInputEmptyOutput : Prop :=
  ∀ s : State, s.enc.st.busy = false → s.enc.n = 0 → s.enc.inp.size = 0 →
    ∃ t, exec .compress s = .next t ∧ t.enc.st.done = true ∧ t.enc.st.outLen = 0 ∧ ∀ a, t.enc.out.holds a = false

/-- `COMPRESS` never takes a fault (R161): when it answers a next state it has ended well. -/
def Obligations.CompressNeverFaults : Prop :=
  ∀ s t : State, exec .compress s = .next t → t.enc.st.fault = false ∧ t.enc.st.done = true

/-- The block constructors (R154, R155, R215): a literal run outside 1..255 raises code 5, a copy outside the format's ranges
code 6 (R210), and the command ends as R214 says; inside the ranges exactly one block is pushed, with its tag and the body
bytes of R154 or R155. That no output byte has a value after the fault is the model's choice for what R214 and U1 leave
unspecified (log 4). -/
def Obligations.BlockConstructorsValidate : Prop :=
  (∀ (e : Enc) (bytes : List Byte) (next : Enc → Result Enc),
      (bytes.length < 1 ∨ 255 < bytes.length →
          ∃ t, encEmitLiteral bytes e next = .next t ∧ t.st.busy = false ∧ t.st.done = false ∧ t.st.fault = true ∧
            t.st.faultCode = 5 ∧ t.n = e.n ∧ t.inp = e.inp ∧ ∀ a, t.out.holds a = false) ∧
        (1 ≤ bytes.length → bytes.length ≤ 255 →
          encEmitLiteral bytes e next = andThen (encPush false (BitVec.ofNat 8 bytes.length :: bytes) e) next)) ∧
    ∀ (e : Enc) (off len : Nat) (next : Enc → Result Enc),
      let c := len - 4
      let w := off * 16 + (if c ≤ 7 then 8 + c else c / 256)
      let word : List Byte := [BitVec.ofNat 8 (w % 256), BitVec.ofNat 8 (w / 256)]
      (len < 4 ∨ 2051 < len ∨ off < 1 ∨ 4095 < off →
          ∃ t, encEmitCopy off len e next = .next t ∧ t.st.busy = false ∧ t.st.done = false ∧ t.st.fault = true ∧
            t.st.faultCode = 6 ∧ t.n = e.n ∧ t.inp = e.inp ∧ ∀ a, t.out.holds a = false) ∧
        (4 ≤ len → len ≤ 2051 → 1 ≤ off → off ≤ 4095 →
          encEmitCopy off len e next =
            andThen (encPush true (if c ≤ 7 then word else word ++ [BitVec.ofNat 8 (c % 256)]) e) next)

/-- Round trip of the two functions (R160, R191): "for all byte sequences B (including empty),
`decompress(compress(B), len(B)) == B`". -/
def Obligations.RoundTripOfBytes : Prop :=
  ∀ b : List Byte, pureDecompress (pureCompress b) b.length = .ok b

/-- Round trip of the machine (R191): compress, hand the stream over, decompress with the same length; the output is the input.
The compressed stream must be a length `DECOMPRESS` accepts (R187; log 25); the host's list is the model's (log 6, log 17). -/
def Obligations.RoundTripOfMachine : Prop :=
  ∀ (s : State) (bytes : List Byte),
    s.enc.st.busy = false → s.dec.st.busy = false → s.enc.n ≤ Config.maxLen → s.enc.inp.size = s.enc.n →
      s.enc.inp.readRange s.enc.n 0 = .ok bytes →
        ∃ t, exec .compress s = .next t ∧
          (t.enc.st.outLen ≤ Config.maxLen →
            ∃ v,
              Host.Core.run Sys2Proof.core 3
                  { t with host := [.argsDec 0 s.enc.n, .handOver .enc .dec, .invoke .decompress] } = .next v ∧
                observe v .dec = .ok (.ok bytes))

/-! ### The machine -/

/-- Reset (R36, R240): the state after reset has every status bit and fault code clear, and an engine's reset input clears them
in any state, a running command abandoned, nothing outside the engine changed. -/
def Obligations.ResetClearsStatus : Prop :=
  (∀ e, (statusOf State.reset e).busy = false ∧ (statusOf State.reset e).done = false ∧
      (statusOf State.reset e).fault = false ∧ (statusOf State.reset e).faultCode = 0) ∧
    ∀ (s : State) (e : Engine) (ops : List HostOp), s.host = .reset e :: ops →
      ∃ t, step s = .next t ∧ (statusOf t e).busy = false ∧ (statusOf t e).done = false ∧ (statusOf t e).fault = false ∧
        (statusOf t e).faultCode = 0 ∧ t.params = s.params ∧ t.host = ops ∧ (e ≠ .flt → t.flt = s.flt) ∧
        (e ≠ .enc → t.enc = s.enc) ∧ (e ≠ .dec → t.dec = s.dec)

/-- Writing `start` (R22, R35, R241): whatever the previous command left, an idle engine whose `require` holds begins with the
per-call initial values. -/
def Obligations.StartInitialises : Prop :=
  (∀ s : State, s.dec.st.busy = false → s.dec.m ≤ Config.maxLen → s.dec.l ≤ Config.maxLen → s.dec.inp.size = s.dec.m →
      ∃ t, hostStart .dec s = .next t ∧ SameBesidesDec s t ∧ t.dec.st.busy = true ∧ t.dec.st.done = false ∧
        t.dec.st.fault = false ∧ t.dec.st.faultCode = 0 ∧ t.dec.ip = 0 ∧ t.dec.dst = 0 ∧ t.dec.ctrl = 2 ∧
        t.dec.m = s.dec.m ∧ t.dec.l = s.dec.l ∧ t.dec.inp = s.dec.inp) ∧
    (∀ s : State, s.enc.st.busy = false → s.enc.n ≤ Config.maxLen → s.enc.inp.size = s.enc.n →
      ∃ t, hostStart .enc s = .next t ∧ SameBesidesEnc s t ∧ t.enc.st.busy = true ∧ t.enc.st.done = false ∧
        t.enc.st.fault = false ∧ t.enc.st.faultCode = 0 ∧ t.enc.src = 0 ∧ t.enc.acc = 0 ∧ t.enc.nq = 0 ∧ t.enc.q = [] ∧
        t.enc.wp = 0 ∧ t.enc.n = s.enc.n ∧ t.enc.inp = s.enc.inp) ∧
    ∀ s : State, s.flt.st.busy = false → s.flt.w ≠ 0 → s.flt.h ≠ 0 →
      s.flt.pix.size = s.flt.h.toNat * (s.flt.w.toNat * 3) →
        ∃ t, hostStart .flt s = .next t ∧ SameBesidesFlt s t ∧ t.flt.st.busy = true ∧ t.flt.st.done = false ∧
          t.flt.st.fault = false ∧ t.flt.st.faultCode = 0 ∧ t.flt.row = 0 ∧ t.flt.w = s.flt.w ∧ t.flt.h = s.flt.h ∧
          t.flt.pix = s.flt.pix

/-- A command turned away: an engine that is busy (U10) or a `require` that is false (U3) refuses, whether the command is run
as a whole or by `start`; so does `FILTER_ROW` of width 0, a host write to a busy engine's spaces or arguments (R252), and
handing over an output that is not done (R70, R252). That the model refuses is log 16. -/
def Obligations.ViolatedContractsRefused : Prop :=
  (∀ (s : State) (w r : BitVec 16), s.flt.st.busy = true →
      exec .filterImage s = .refused .startWhileBusy ∧ exec (.filterRow w r) s = .refused .startWhileBusy) ∧
    (∀ (s : State) (r : BitVec 16), s.flt.st.busy = false → exec (.filterRow 0 r) s = .refused .contract) ∧
    (∀ s : State, s.enc.st.busy = true → exec .compress s = .refused .startWhileBusy) ∧
    (∀ s : State, s.dec.st.busy = true → exec .decompress s = .refused .startWhileBusy) ∧
    (∀ (s : State) (e : Engine), (statusOf s e).busy = true → hostStart e s = .refused .startWhileBusy) ∧
    (∀ s : State, s.flt.st.busy = false →
      (s.flt.w = 0 ∨ s.flt.h = 0 ∨ s.flt.pix.size ≠ s.flt.h.toNat * (s.flt.w.toNat * 3)) →
        exec .filterImage s = .refused .contract ∧ hostStart .flt s = .refused .contract) ∧
    (∀ s : State, s.enc.st.busy = false → (Config.maxLen < s.enc.n ∨ s.enc.inp.size ≠ s.enc.n) →
      exec .compress s = .refused .contract ∧ hostStart .enc s = .refused .contract) ∧
    (∀ s : State, s.dec.st.busy = false →
      (Config.maxLen < s.dec.m ∨ Config.maxLen < s.dec.l ∨ s.dec.inp.size ≠ s.dec.m) →
        exec .decompress s = .refused .contract ∧ hostStart .dec s = .refused .contract) ∧
    (∀ (s : State) (op : HostOp) (ops : List HostOp), s.host = op :: ops → op.writes = true →
      (statusOf s op.target).busy = true → ∃ r, step s = .refused r) ∧
    ∀ (s : State) (src dst : Engine) (ops : List HostOp), s.host = .handOver src dst :: ops →
      ((statusOf s src).busy = true ∨ (statusOf s src).done = false) → step s = .refused .outputNotReady

/-- The invariant holds after reset. -/
def Obligations.InvariantAtReset : Prop := State.reset.Inv

/-- Every step keeps the invariant, from every state that meets it: spaces stay in canonical form, status bits stay coherent
(R22, R251), `out_len` of `ENC` and `DEC` stays within its 32 bits, while an engine is busy its cursors and queues stay in the
ranges of R25, R28, R29 and R31, and what `ENC` has written and queued stays within R74's bound. -/
def Obligations.StepKeepsInvariant : Prop := ∀ s t : State, s.Inv → step s = .next t → t.Inv

/-- The engines are independent (R21): an instruction depends only on its own engine and the parameters, and changes only its
own engine. -/
def Obligations.EnginesShareNothing : Prop :=
  ∀ (i : Instr) (s t : State), exec i s = .next t →
    match engineOf i with
    | .flt =>
      SameBesidesFlt s t ∧
        ∀ s' : State, s'.params = s.params → s'.flt = s.flt → exec i s' = .next { s' with flt := t.flt }
    | .enc => SameBesidesEnc s t ∧ ∀ s' : State, s'.enc = s.enc → exec i s' = .next { s' with enc := t.enc }
    | .dec =>
      SameBesidesDec s t ∧
        ∀ s' : State, s'.params = s.params → s'.dec = s.dec → exec i s' = .next { s' with dec := t.dec }

/-- What a command may not change (R34): no step changes the parameters, and while an engine is busy only its reset input
changes its argument registers or its input space. -/
def Obligations.InputsFixedWhileBusy : Prop :=
  ∀ s t : State, step s = .next t →
    t.params = s.params ∧
      (s.flt.st.busy = true → s.host.head? ≠ some (.reset .flt) →
        t.flt.w = s.flt.w ∧ t.flt.h = s.flt.h ∧ t.flt.pix = s.flt.pix) ∧
      (s.enc.st.busy = true → s.host.head? ≠ some (.reset .enc) → t.enc.n = s.enc.n ∧ t.enc.inp = s.enc.inp) ∧
      (s.dec.st.busy = true → s.host.head? ≠ some (.reset .dec) →
        t.dec.m = s.dec.m ∧ t.dec.l = s.dec.l ∧ t.dec.inp = s.dec.inp)

/-- The status of an engine that is not busy stays until a command is begun on it or it is reset: `fault` is sticky (R22,
R219). That `FILTER_ROW` begins nothing in this sense and leaves the status registers is the model's reading (log 9), unsafe if
the hardware sets `done` for it. -/
def Obligations.StatusStickyUntilRestart : Prop :=
  ∀ (s t : State) (e : Engine), step s = .next t → (statusOf s e).busy = false →
    (∀ op, s.host.head? = some op → op.target = e → op.restarts = false) → statusOf t e = statusOf s e

/-- The cursors only move forward (R189, R23): in every step in which a busy engine does not end its command, `DEC.ip`,
`DEC.dst`, `ENC.src` and `FLT.row` do not decrease, and `DEC.ip` and `DEC.dst` stay inside their bounds. -/
def Obligations.CursorsOnlyAdvance : Prop :=
  (∀ s t : State, engineTurn .dec s = .next t → s.dec.st.busy = true → t.dec.st.busy = true →
      s.dec.ip < t.dec.ip ∧ t.dec.ip ≤ t.dec.m ∧ s.dec.dst ≤ t.dec.dst ∧ (s.dec.dst ≤ s.dec.l → t.dec.dst ≤ t.dec.l)) ∧
    (∀ s t : State, engineTurn .enc s = .next t → s.enc.st.busy = true → t.enc.st.busy = true → s.enc.src < t.enc.src) ∧
    ∀ s t : State, engineTurn .flt s = .next t → s.flt.st.busy = true → t.flt.st.busy = true → s.flt.row ≤ t.flt.row

/-- Every command ends (R250, R251): when a command's run answers a next state its engine is idle, with exactly one of `done`
and `fault`. -/
def Obligations.EveryCommandEnds : Prop :=
  ∀ (i : Instr) (s t : State), i = .filterImage ∨ i = .compress ∨ i = .decompress → exec i s = .next t →
    (statusOf t (engineOf i)).busy = false ∧
      ((statusOf t (engineOf i)).done = true ↔ (statusOf t (engineOf i)).fault = false)

/-- The two ways to run a command agree (R22's last paragraph, decision D1): writing `start` and letting the engine make its
moves answers exactly what the command answers as one transaction (the two ways are the model's, log 5 and log 6). -/
def Obligations.MovesEqualTransaction : Prop :=
  (∀ (s : State) (ops : List HostOp),
      Host.Core.run Sys2Proof.core (s.dec.m + 2)
          { s with host := .start .dec :: (List.replicate (s.dec.m + 1) (.move .dec) ++ ops) } =
        exec .decompress { s with host := ops }) ∧
    (∀ (s : State) (ops : List HostOp),
      Host.Core.run Sys2Proof.core (s.enc.n + 2)
          { s with host := .start .enc :: (List.replicate (s.enc.n + 1) (.move .enc) ++ ops) } =
        exec .compress { s with host := ops }) ∧
    ∀ (s : State) (ops : List HostOp),
      Host.Core.run Sys2Proof.core (4 * s.flt.h.toNat + 2)
          { s with host := .start .flt :: (List.replicate (4 * s.flt.h.toNat + 1) (.move .flt) ++ ops) } =
        exec .filterImage { s with host := ops }

/-- Nothing survives from an earlier command (R241): two machines with the same parameters, arguments and input show the same
result (R251) and the same status, `out_len` where `done` gives it a meaning, whatever else their engines hold. That the whole
output spaces are equal, also beyond what R251 lets the host observe, rests on log 4. -/
def Obligations.CommandsForgetThePast : Prop :=
  (∀ s s' t t' : State, s'.dec.m = s.dec.m → s'.dec.l = s.dec.l → s'.dec.inp = s.dec.inp → s'.params = s.params →
      exec .decompress s = .next t → exec .decompress s' = .next t' →
        observe t' .dec = observe t .dec ∧ t'.dec.st.done = t.dec.st.done ∧ t'.dec.st.fault = t.dec.st.fault ∧
          t'.dec.st.faultCode = t.dec.st.faultCode ∧ (t.dec.st.done = true → t'.dec.st.outLen = t.dec.st.outLen) ∧
          t'.dec.out = t.dec.out) ∧
    (∀ s s' t t' : State, s'.enc.n = s.enc.n → s'.enc.inp = s.enc.inp → exec .compress s = .next t →
      exec .compress s' = .next t' →
        observe t' .enc = observe t .enc ∧ t'.enc.st.done = t.enc.st.done ∧ t'.enc.st.fault = t.enc.st.fault ∧
          t'.enc.st.faultCode = t.enc.st.faultCode ∧ (t.enc.st.done = true → t'.enc.st.outLen = t.enc.st.outLen) ∧
          t'.enc.out = t.enc.out) ∧
    ∀ s s' t t' : State, s'.flt.w = s.flt.w → s'.flt.h = s.flt.h → s'.flt.pix = s.flt.pix → s'.params = s.params →
      exec .filterImage s = .next t → exec .filterImage s' = .next t' →
        observe t' .flt = observe t .flt ∧ t'.flt.st.done = t.flt.st.done ∧ t'.flt.st.fault = t.flt.st.fault ∧
          t'.flt.st.faultCode = t.flt.st.faultCode ∧ (t.flt.st.done = true → t'.flt.st.outLen = t.flt.st.outLen) ∧
          t'.flt.fs = t.flt.fs

/-- Handing an output over (R2, R21; the length registers are the model's convenience, log 17): when the source is done and the
target idle, the target's input space holds exactly the source's first `out_len` bytes. -/
def Obligations.HandOverPassesOutput : Prop :=
  ∀ (s : State) (ops : List HostOp) (src dst : Engine) (bytes : List Byte),
    s.host = .handOver src dst :: ops → (statusOf s src).busy = false → (statusOf s src).done = true →
      (statusOf s dst).busy = false → outputBytes s src = .ok bytes →
        ∃ t, step s = .next t ∧ t.host = ops ∧
          match dst with
          | .flt => t.flt.pix.readRange bytes.length 0 = .ok bytes ∧ t.flt.pix.size = bytes.length
          | .enc => t.enc.inp.readRange bytes.length 0 = .ok bytes ∧ t.enc.inp.size = bytes.length ∧ t.enc.n = bytes.length
          | .dec => t.dec.inp.readRange bytes.length 0 = .ok bytes ∧ t.dec.inp.size = bytes.length ∧ t.dec.m = bytes.length
end

