-- ==== Sys2Proof/Laws/State.lean ====
section
/-! SUPPORT. One lemma per field of each named update of an engine or of the machine: what it writes, and that it leaves the
other fields alone. A field the spec leaves unspecified after the update has no lemma. -/

namespace Sys2Proof.Machine

open Sys2Proof

/-! ### FLT -/

@[simp] theorem fltScramble_st (f : Flt) : (fltScramble f).st = f.st := rfl
@[simp] theorem fltScramble_w (f : Flt) : (fltScramble f).w = f.w := rfl
@[simp] theorem fltScramble_h (f : Flt) : (fltScramble f).h = f.h := rfl
@[simp] theorem fltScramble_pix (f : Flt) : (fltScramble f).pix = f.pix := rfl
@[simp] theorem fltScramble_fs (f : Flt) : (fltScramble f).fs = f.fs := rfl
@[simp] theorem fltBegin_w (f : Flt) : (fltBegin f).w = f.w := rfl
@[simp] theorem fltBegin_h (f : Flt) : (fltBegin f).h = f.h := rfl
@[simp] theorem fltBegin_pix (f : Flt) : (fltBegin f).pix = f.pix := rfl
@[simp] theorem fltBegin_st (f : Flt) : (fltBegin f).st = statusStarted (fltFree f 4) := rfl
@[simp] theorem fltBegin_row (f : Flt) : (fltBegin f).row = 0 := rfl
@[simp] theorem fltBegin_phase (f : Flt) : (fltBegin f).phase = .predictor .a := rfl
@[simp] theorem fltBegin_fs (f : Flt) : (fltBegin f).fs = Memory.alloc (fltLength f) := rfl
@[simp] theorem fltFinish_w (f : Flt) : (fltFinish f).w = f.w := rfl
@[simp] theorem fltFinish_h (f : Flt) : (fltFinish f).h = f.h := rfl
@[simp] theorem fltFinish_pix (f : Flt) : (fltFinish f).pix = f.pix := rfl
@[simp] theorem fltFinish_fs (f : Flt) : (fltFinish f).fs = f.fs := rfl
@[simp] theorem fltFinish_st (f : Flt) : (fltFinish f).st = statusDone (fltLength f) := rfl
@[simp] theorem fltReset_st (f : Flt) : (fltReset f).st = statusReset (fltFree f 4) := rfl
@[simp] theorem fltReset_pix (f : Flt) : (fltReset f).pix = Memory.alloc f.pix.size := rfl
@[simp] theorem fltReset_fs (f : Flt) : (fltReset f).fs = Memory.alloc f.fs.size := rfl
@[simp] theorem fltName_st (p : Params) (f : Flt) : (fltName p f).st = f.st := rfl
@[simp] theorem fltName_w (p : Params) (f : Flt) : (fltName p f).w = f.w := rfl
@[simp] theorem fltName_h (p : Params) (f : Flt) : (fltName p f).h = f.h := rfl
@[simp] theorem fltName_pix (p : Params) (f : Flt) : (fltName p f).pix = f.pix := rfl
@[simp] theorem fltName_fs (p : Params) (f : Flt) : (fltName p f).fs = f.fs := rfl
@[simp] theorem fltName_row (p : Params) (f : Flt) : (fltName p f).row = f.row := rfl
@[simp] theorem fltName_best (p : Params) (f : Flt) : (fltName p f).best = f.best := rfl
@[simp] theorem fltName_bestCost (p : Params) (f : Flt) : (fltName p f).bestCost = f.bestCost := rfl
@[simp] theorem fltName_cost (p : Params) (f : Flt) : (fltName p f).cost = f.cost := rfl
@[simp] theorem fltName_cand (p : Params) (f : Flt) : (fltName p f).cand = f.cand := rfl
@[simp] theorem fltName_res (p : Params) (f : Flt) : (fltName p f).res = f.res := rfl
@[simp] theorem fltName_phase (p : Params) (f : Flt) : (fltName p f).phase = f.phase := rfl
@[simp] theorem fltName_fresh (p : Params) (f : Flt) : (fltName p f).fresh = f.fresh := rfl
@[simp] theorem fltName_id (p : Params) (f : Flt) : (fltName p f).id = idOfPred p f.best := rfl

/-! ### ENC -/

@[simp] theorem encScramble_st (e : Enc) : (encScramble e).st = e.st := rfl
@[simp] theorem encScramble_n (e : Enc) : (encScramble e).n = e.n := rfl
@[simp] theorem encScramble_inp (e : Enc) : (encScramble e).inp = e.inp := rfl
@[simp] theorem encScramble_out (e : Enc) : (encScramble e).out = e.out := rfl
@[simp] theorem encBegin_n (e : Enc) : (encBegin e).n = e.n := rfl
@[simp] theorem encBegin_inp (e : Enc) : (encBegin e).inp = e.inp := rfl
@[simp] theorem encBegin_st (e : Enc) : (encBegin e).st = statusStarted (encFree e 7) := rfl
@[simp] theorem encBegin_src (e : Enc) : (encBegin e).src = 0 := rfl
@[simp] theorem encBegin_acc (e : Enc) : (encBegin e).acc = 0 := rfl
@[simp] theorem encBegin_nq (e : Enc) : (encBegin e).nq = 0 := rfl
@[simp] theorem encBegin_q (e : Enc) : (encBegin e).q = [] := rfl
@[simp] theorem encBegin_wp (e : Enc) : (encBegin e).wp = 0 := rfl
@[simp] theorem encBegin_out (e : Enc) : (encBegin e).out = Memory.alloc (encCapacity e.n) := rfl
@[simp] theorem encFinish_n (e : Enc) : (encFinish e).n = e.n := rfl
@[simp] theorem encFinish_inp (e : Enc) : (encFinish e).inp = e.inp := rfl
@[simp] theorem encFinish_out (e : Enc) : (encFinish e).out = e.out := rfl
@[simp] theorem encFinish_st (e : Enc) : (encFinish e).st = statusDone e.wp := rfl
@[simp] theorem encRaise_n (c : Cause) (e : Enc) : (encRaise c e).n = e.n := rfl
@[simp] theorem encRaise_inp (c : Cause) (e : Enc) : (encRaise c e).inp = e.inp := rfl
@[simp] theorem encRaise_st (c : Cause) (e : Enc) : (encRaise c e).st = statusRaised c (encFree e 7) := rfl
@[simp] theorem encRaise_out (c : Cause) (e : Enc) : (encRaise c e).out = Memory.alloc e.out.size := rfl
@[simp] theorem encReset_st (e : Enc) : (encReset e).st = statusReset (encFree e 7) := rfl
@[simp] theorem encReset_inp (e : Enc) : (encReset e).inp = Memory.alloc e.inp.size := rfl
@[simp] theorem encReset_out (e : Enc) : (encReset e).out = Memory.alloc e.out.size := rfl

/-! ### DEC -/

@[simp] theorem decScramble_st (d : Dec) : (decScramble d).st = d.st := rfl
@[simp] theorem decScramble_m (d : Dec) : (decScramble d).m = d.m := rfl
@[simp] theorem decScramble_l (d : Dec) : (decScramble d).l = d.l := rfl
@[simp] theorem decScramble_inp (d : Dec) : (decScramble d).inp = d.inp := rfl
@[simp] theorem decScramble_out (d : Dec) : (decScramble d).out = d.out := rfl
@[simp] theorem decBegin_m (d : Dec) : (decBegin d).m = d.m := rfl
@[simp] theorem decBegin_l (d : Dec) : (decBegin d).l = d.l := rfl
@[simp] theorem decBegin_inp (d : Dec) : (decBegin d).inp = d.inp := rfl
@[simp] theorem decBegin_st (d : Dec) : (decBegin d).st = statusStarted (decFree d 7) := rfl
@[simp] theorem decBegin_ip (d : Dec) : (decBegin d).ip = 0 := rfl
@[simp] theorem decBegin_dst (d : Dec) : (decBegin d).dst = 0 := rfl
@[simp] theorem decBegin_ctrl (d : Dec) : (decBegin d).ctrl = Config.ctrlSentinelInit := rfl
@[simp] theorem decBegin_phase (d : Dec) : (decBegin d).phase = .loop := rfl
@[simp] theorem decBegin_out (d : Dec) : (decBegin d).out = Memory.alloc d.l := rfl
@[simp] theorem decFinish_m (d : Dec) : (decFinish d).m = d.m := rfl
@[simp] theorem decFinish_l (d : Dec) : (decFinish d).l = d.l := rfl
@[simp] theorem decFinish_inp (d : Dec) : (decFinish d).inp = d.inp := rfl
@[simp] theorem decFinish_out (d : Dec) : (decFinish d).out = d.out := rfl
@[simp] theorem decFinish_st (d : Dec) : (decFinish d).st = statusDone d.l := rfl
@[simp] theorem decRaise_m (c : Cause) (d : Dec) : (decRaise c d).m = d.m := rfl
@[simp] theorem decRaise_l (c : Cause) (d : Dec) : (decRaise c d).l = d.l := rfl
@[simp] theorem decRaise_inp (c : Cause) (d : Dec) : (decRaise c d).inp = d.inp := rfl
@[simp] theorem decRaise_st (c : Cause) (d : Dec) : (decRaise c d).st = statusRaised c (decFree d 7) := rfl
@[simp] theorem decRaise_out (c : Cause) (d : Dec) : (decRaise c d).out = Memory.alloc d.out.size := rfl
@[simp] theorem decReset_st (d : Dec) : (decReset d).st = statusReset (decFree d 7) := rfl
@[simp] theorem decReset_inp (d : Dec) : (decReset d).inp = Memory.alloc d.inp.size := rfl
@[simp] theorem decReset_out (d : Dec) : (decReset d).out = Memory.alloc d.out.size := rfl

/-! ### Status -/

@[simp] theorem statusStarted_busy (free : Nat) : (statusStarted free).busy = true := rfl
@[simp] theorem statusStarted_done (free : Nat) : (statusStarted free).done = false := rfl
@[simp] theorem statusStarted_fault (free : Nat) : (statusStarted free).fault = false := rfl
@[simp] theorem statusStarted_faultCode (free : Nat) : (statusStarted free).faultCode = 0 := rfl
@[simp] theorem statusStarted_outLen (free : Nat) : (statusStarted free).outLen = outLenFree free := rfl
@[simp] theorem statusReset_busy (free : Nat) : (statusReset free).busy = false := rfl
@[simp] theorem statusReset_done (free : Nat) : (statusReset free).done = false := rfl
@[simp] theorem statusReset_fault (free : Nat) : (statusReset free).fault = false := rfl
@[simp] theorem statusReset_faultCode (free : Nat) : (statusReset free).faultCode = 0 := rfl
@[simp] theorem statusReset_outLen (free : Nat) : (statusReset free).outLen = outLenFree free := rfl
@[simp] theorem statusDone_busy (count : Nat) : (statusDone count).busy = false := rfl
@[simp] theorem statusDone_done (count : Nat) : (statusDone count).done = true := rfl
@[simp] theorem statusDone_fault (count : Nat) : (statusDone count).fault = false := rfl
@[simp] theorem statusDone_faultCode (count : Nat) : (statusDone count).faultCode = 0 := rfl
@[simp] theorem statusDone_outLen (count : Nat) : (statusDone count).outLen = count := rfl
@[simp] theorem statusRaised_busy (c : Cause) (free : Nat) : (statusRaised c free).busy = false := rfl
@[simp] theorem statusRaised_done (c : Cause) (free : Nat) : (statusRaised c free).done = false := rfl
@[simp] theorem statusRaised_fault (c : Cause) (free : Nat) : (statusRaised c free).fault = true := rfl
@[simp] theorem statusRaised_faultCode (c : Cause) (free : Nat) : (statusRaised c free).faultCode = faultCodeOf c := rfl
@[simp] theorem statusRaised_outLen (c : Cause) (free : Nat) : (statusRaised c free).outLen = outLenFree free := rfl

/-- Every code of R210 is one of 1 to 6, so a raised fault never shows code 0. -/
theorem faultCodeOf_ne_zero (c : Cause) : faultCodeOf c ≠ 0 := by cases c <;> decide

/-- An unspecified `out_len` is within its 32 bits (R22). -/
theorem outLenFree_lt (free : Nat) : outLenFree free < 2 ^ 32 := Nat.mod_lt _ (by decide)

theorem statusStarted_coherent (free : Nat) : (statusStarted free).Coherent := by
  simpa [Status.Coherent] using outLenFree_lt free

theorem statusDone_coherent (count : Nat) : (statusDone count).Coherent := by simp [Status.Coherent]

theorem statusRaised_coherent (c : Cause) (free : Nat) : (statusRaised c free).Coherent := by
  simpa [Status.Coherent] using ⟨faultCodeOf_ne_zero c, outLenFree_lt free⟩

theorem statusReset_coherent (free : Nat) : (statusReset free).Coherent := by
  simpa [Status.Coherent] using outLenFree_lt free

/-! ### The machine -/

@[simp] theorem withInput_flt_params (bytes : List Byte) (s : State) : (withInput .flt bytes s).params = s.params := rfl
@[simp] theorem withInputLength_flt_params (k : Nat) (s : State) : (withInputLength .flt k s).params = s.params := rfl
@[simp] theorem hostReset_flt_params (s : State) : (hostReset .flt s).params = s.params := rfl
@[simp] theorem withInput_flt_host (bytes : List Byte) (s : State) : (withInput .flt bytes s).host = s.host := rfl
@[simp] theorem withInputLength_flt_host (k : Nat) (s : State) : (withInputLength .flt k s).host = s.host := rfl
@[simp] theorem hostReset_flt_host (s : State) : (hostReset .flt s).host = s.host := rfl
@[simp] theorem withInput_flt_enc (bytes : List Byte) (s : State) : (withInput .flt bytes s).enc = s.enc := rfl
@[simp] theorem withInputLength_flt_enc (k : Nat) (s : State) : (withInputLength .flt k s).enc = s.enc := rfl
@[simp] theorem hostReset_flt_enc (s : State) : (hostReset .flt s).enc = s.enc := rfl
@[simp] theorem withInput_flt_dec (bytes : List Byte) (s : State) : (withInput .flt bytes s).dec = s.dec := rfl
@[simp] theorem withInputLength_flt_dec (k : Nat) (s : State) : (withInputLength .flt k s).dec = s.dec := rfl
@[simp] theorem hostReset_flt_dec (s : State) : (hostReset .flt s).dec = s.dec := rfl
@[simp] theorem withInput_enc_params (bytes : List Byte) (s : State) : (withInput .enc bytes s).params = s.params := rfl
@[simp] theorem withInputLength_enc_params (k : Nat) (s : State) : (withInputLength .enc k s).params = s.params := rfl
@[simp] theorem hostReset_enc_params (s : State) : (hostReset .enc s).params = s.params := rfl
@[simp] theorem withInput_enc_host (bytes : List Byte) (s : State) : (withInput .enc bytes s).host = s.host := rfl
@[simp] theorem withInputLength_enc_host (k : Nat) (s : State) : (withInputLength .enc k s).host = s.host := rfl
@[simp] theorem hostReset_enc_host (s : State) : (hostReset .enc s).host = s.host := rfl
@[simp] theorem withInput_enc_flt (bytes : List Byte) (s : State) : (withInput .enc bytes s).flt = s.flt := rfl
@[simp] theorem withInputLength_enc_flt (k : Nat) (s : State) : (withInputLength .enc k s).flt = s.flt := rfl
@[simp] theorem hostReset_enc_flt (s : State) : (hostReset .enc s).flt = s.flt := rfl
@[simp] theorem withInput_enc_dec (bytes : List Byte) (s : State) : (withInput .enc bytes s).dec = s.dec := rfl
@[simp] theorem withInputLength_enc_dec (k : Nat) (s : State) : (withInputLength .enc k s).dec = s.dec := rfl
@[simp] theorem hostReset_enc_dec (s : State) : (hostReset .enc s).dec = s.dec := rfl
@[simp] theorem withInput_dec_params (bytes : List Byte) (s : State) : (withInput .dec bytes s).params = s.params := rfl
@[simp] theorem withInputLength_dec_params (k : Nat) (s : State) : (withInputLength .dec k s).params = s.params := rfl
@[simp] theorem hostReset_dec_params (s : State) : (hostReset .dec s).params = s.params := rfl
@[simp] theorem withInput_dec_host (bytes : List Byte) (s : State) : (withInput .dec bytes s).host = s.host := rfl
@[simp] theorem withInputLength_dec_host (k : Nat) (s : State) : (withInputLength .dec k s).host = s.host := rfl
@[simp] theorem hostReset_dec_host (s : State) : (hostReset .dec s).host = s.host := rfl
@[simp] theorem withInput_dec_flt (bytes : List Byte) (s : State) : (withInput .dec bytes s).flt = s.flt := rfl
@[simp] theorem withInputLength_dec_flt (k : Nat) (s : State) : (withInputLength .dec k s).flt = s.flt := rfl
@[simp] theorem hostReset_dec_flt (s : State) : (hostReset .dec s).flt = s.flt := rfl
@[simp] theorem withInput_dec_enc (bytes : List Byte) (s : State) : (withInput .dec bytes s).enc = s.enc := rfl
@[simp] theorem withInputLength_dec_enc (k : Nat) (s : State) : (withInputLength .dec k s).enc = s.enc := rfl
@[simp] theorem hostReset_dec_enc (s : State) : (hostReset .dec s).enc = s.enc := rfl

end Sys2Proof.Machine
end

