-- ==== Sys2Proof/Laws/Memory.lean ====
section
/-! SUPPORT. Laws of the spaces: a read after a write gives the value written, a write leaves every other address alone, every
operation keeps the canonical form and the size, and what each of the longer accesses can do. -/

namespace Sys2Proof.Machine

open Sys2Proof

/-! ### Cells -/

theorem cellsRead_write_same (cs : List Host.Cell) (a : Nat) (v : Byte) : cellsRead (cellsWrite cs a v) a = some v := by
  induction cs with
  | nil => simp [cellsWrite, cellsRead]
  | cons c cs ih =>
    obtain ⟨b, u⟩ := c
    simp only [cellsWrite]
    split
    · simp [cellsRead]
    · split
      · simp [cellsRead]
      · rename_i h1 h2; simp [cellsRead, h2, ih]

theorem cellsRead_write_other (cs : List Host.Cell) (a b : Nat) (v : Byte) (h : b ≠ a) :
    cellsRead (cellsWrite cs a v) b = cellsRead cs b := by
  induction cs with
  | nil => simp [cellsWrite, cellsRead, h]
  | cons c cs ih =>
    obtain ⟨x, u⟩ := c
    simp only [cellsWrite]
    split
    · simp [cellsRead, h]
    · split
      · rename_i h2; subst h2; simp [cellsRead, h]
      · simp [cellsRead, ih]

theorem cellsWf_mono {hi lo lo' : Nat} {cs : List Host.Cell} (h : cellsWf hi lo cs = true) (hl : lo' ≤ lo) :
    cellsWf hi lo' cs = true := by
  cases cs with
  | nil => rfl
  | cons c cs =>
    obtain ⟨b, u⟩ := c
    simp only [cellsWf, Bool.and_eq_true, decide_eq_true_eq] at h ⊢
    exact ⟨hl.trans h.1, h.2⟩

theorem cellsWf_write {hi lo a : Nat} {cs : List Host.Cell} {v : Byte} (h : cellsWf hi lo cs = true) (hl : lo ≤ a)
    (hh : a < hi) : cellsWf hi lo (cellsWrite cs a v) = true := by
  induction cs generalizing lo with
  | nil => simp [cellsWrite, cellsWf, hl, hh]
  | cons c cs ih =>
    obtain ⟨b, u⟩ := c
    simp only [cellsWf, Bool.and_eq_true, decide_eq_true_eq] at h
    obtain ⟨h1, h2, h3⟩ := h
    simp only [cellsWrite]
    split
    · rename_i hab
      simp only [cellsWf, Bool.and_eq_true, decide_eq_true_eq]
      exact ⟨hl, hh, hab, h2, h3⟩
    · split
      · rename_i hab; subst hab
        simp only [cellsWf, Bool.and_eq_true, decide_eq_true_eq]
        exact ⟨hl, hh, h3⟩
      · simp only [cellsWf, Bool.and_eq_true, decide_eq_true_eq]
        exact ⟨h1, h2, ih h3 (by omega)⟩

theorem cellsWf_cellsOf (bytes : List Byte) (a : Nat) : cellsWf (a + bytes.length) a (cellsOf a bytes) = true := by
  induction bytes generalizing a with
  | nil => rfl
  | cons b bs ih =>
    have := ih (a + 1)
    simp only [cellsOf, cellsWf, List.length_cons, Bool.and_eq_true, decide_eq_true_eq]
    exact ⟨le_refl _, by omega, by rw [show a + (bs.length + 1) = a + 1 + bs.length by omega]; exact this⟩

theorem cellsRead_cellsOf (bytes : List Byte) (a k : Nat) :
    cellsRead (cellsOf a bytes) k = if a ≤ k then bytes[k - a]? else none := by
  induction bytes generalizing a with
  | nil => simp [cellsOf, cellsRead]
  | cons b bs ih =>
    simp only [cellsOf, cellsRead, ih]
    by_cases hk : k = a
    · simp [hk]
    · by_cases hle : a ≤ k
      · have h1 : a + 1 ≤ k := by omega
        have h2 : k - a = (k - (a + 1)) + 1 := by omega
        simp [hk, hle, h1, h2]
      · have h1 : ¬ a + 1 ≤ k := by omega
        simp [hk, hle, h1]

/-! ### One byte -/

/-- Everything a read can do. -/
theorem Memory.read_ok_iff {m : Memory} {a : Nat} {b : Byte} :
    m.read a = .ok b ↔ a < m.size ∧ cellsRead m.cells a = some b := by
  unfold Memory.read
  split
  · rename_i h; cases hc : cellsRead m.cells a <;> simp [h]
  · rename_i h; simp [h]

theorem Memory.holds_iff {m : Memory} {a : Nat} : m.holds a = true ↔ ∃ b, m.read a = .ok b := by
  unfold Memory.holds
  cases m.read a <;> simp

/-- Everything a write can do. -/
theorem Memory.write_ok_iff {m m' : Memory} {a : Nat} {v : Byte} :
    m.write a v = .ok m' ↔ a < m.size ∧ m' = { m with cells := cellsWrite m.cells a v } := by
  unfold Memory.write
  split
  · rename_i h; simp [h, eq_comm]
  · rename_i h; simp [h]

theorem Memory.write_ok {m : Memory} {a : Nat} {v : Byte} (h : a < m.size) :
    m.write a v = .ok { m with cells := cellsWrite m.cells a v } := by simp [Memory.write, h]

theorem Memory.write_size {m m' : Memory} {a : Nat} {v : Byte} (h : m.write a v = .ok m') : m'.size = m.size := by
  rw [Memory.write_ok_iff] at h; rw [h.2]

theorem Memory.write_wf {m m' : Memory} {a : Nat} {v : Byte} (hm : m.wf = true) (h : m.write a v = .ok m') :
    m'.wf = true := by
  obtain ⟨ha, rfl⟩ := Memory.write_ok_iff.1 h
  exact cellsWf_write hm (Nat.zero_le _) ha

/-- A read after a write to the same address gives the value written. -/
theorem Memory.read_write_same {m m' : Memory} {a : Nat} {v : Byte} (h : m.write a v = .ok m') : m'.read a = .ok v := by
  obtain ⟨ha, rfl⟩ := Memory.write_ok_iff.1 h
  exact Memory.read_ok_iff.2 ⟨ha, cellsRead_write_same _ _ _⟩

/-- A write leaves every other address alone. -/
theorem Memory.read_write_other {m m' : Memory} {a b : Nat} {v : Byte} (h : m.write a v = .ok m') (hb : b ≠ a) :
    m'.read b = m.read b := by
  obtain ⟨ha, rfl⟩ := Memory.write_ok_iff.1 h
  simp only [Memory.read, cellsRead_write_other _ _ _ _ hb]

/-! ### Whole spaces -/

@[simp] theorem Memory.alloc_size (k : Nat) : (Memory.alloc k).size = k := rfl

@[simp] theorem Memory.ofBytes_size (bytes : List Byte) : (Memory.ofBytes bytes).size = bytes.length := rfl

@[simp] theorem Memory.alloc_wf (k : Nat) : (Memory.alloc k).wf = true := rfl

@[simp] theorem Memory.empty_wf : Memory.empty.wf = true := rfl

@[simp] theorem Memory.ofBytes_wf (bytes : List Byte) : (Memory.ofBytes bytes).wf = true := by
  simpa [Memory.wf, Memory.ofBytes] using cellsWf_cellsOf bytes 0

/-- A freshly allocated space has no byte with a value. -/
theorem Memory.alloc_read (k a : Nat) : (Memory.alloc k).read a = .error (if a < k then .unwrittenByte else .outsideSpace) := by
  unfold Memory.read
  by_cases h : a < k <;> simp [Memory.alloc, cellsRead, h]

/-- A space filled with bytes holds exactly them. -/
theorem Memory.ofBytes_read (bytes : List Byte) (a : Nat) :
    (Memory.ofBytes bytes).read a = if h : a < bytes.length then .ok bytes[a] else .error .outsideSpace := by
  unfold Memory.read
  by_cases h : a < bytes.length
  · simp [Memory.ofBytes, h, cellsRead_cellsOf]
  · simp [Memory.ofBytes, h]

/-! ### Runs of bytes -/

/-- Everything a ranged read can do when it answers bytes: each is the byte at its address. -/
theorem Memory.readRange_ok {m : Memory} {k a : Nat} {bs : List Byte} (h : m.readRange k a = .ok bs) :
    bs.length = k ∧ ∀ j (hj : j < bs.length), m.read (a + j) = .ok bs[j] := by
  induction k generalizing a bs with
  | zero => simp [Memory.readRange] at h; subst h; simp
  | succ k ih =>
    simp only [Memory.readRange] at h
    cases hr : m.read a with
    | error x => simp [hr] at h
    | ok b =>
      cases hs : m.readRange k (a + 1) with
      | error x => simp [hr, hs] at h
      | ok rest =>
        simp only [hr, hs, Except.ok.injEq] at h
        subst h
        obtain ⟨h1, h2⟩ := ih hs
        refine ⟨by simp [h1], ?_⟩
        intro j hj
        cases j with
        | zero => simpa using hr
        | succ j =>
          have := h2 j (by simpa using hj)
          simpa [Nat.add_assoc, Nat.add_comm 1 j] using this

/-- A ranged read answers bytes when every address of the range holds one. -/
theorem Memory.readRange_total {m : Memory} {k a : Nat} (h : ∀ j, j < k → m.holds (a + j) = true) :
    ∃ bs, m.readRange k a = .ok bs := by
  induction k generalizing a with
  | zero => exact ⟨[], rfl⟩
  | succ k ih =>
    obtain ⟨b, hb⟩ := Memory.holds_iff.1 (by simpa using h 0 (Nat.succ_pos _))
    obtain ⟨bs, hbs⟩ := ih (a := a + 1) (fun j hj => by
      have := h (j + 1) (by omega)
      rwa [show a + (j + 1) = a + 1 + j by omega] at this)
    exact ⟨b :: bs, by simp [Memory.readRange, hb, hbs]⟩

/-- Two spaces that read alike on a range are read alike as a range. -/
theorem Memory.readRange_congr {m m' : Memory} {k a : Nat} (h : ∀ j, j < k → m.read (a + j) = m'.read (a + j)) :
    m.readRange k a = m'.readRange k a := by
  induction k generalizing a with
  | zero => rfl
  | succ k ih =>
    have h0 : m.read a = m'.read a := by simpa using h 0 (Nat.succ_pos _)
    have h1 : m.readRange k (a + 1) = m'.readRange k (a + 1) := ih (fun j hj => by
      have := h (j + 1) (by omega)
      rwa [show a + (j + 1) = a + 1 + j by omega] at this)
    simp only [Memory.readRange, h0, h1]

/-- A ranged read of a space filled with bytes. -/
theorem Memory.ofBytes_readRange (bytes : List Byte) : (Memory.ofBytes bytes).readRange bytes.length 0 = .ok bytes := by
  obtain ⟨bs, hbs⟩ := Memory.readRange_total (m := Memory.ofBytes bytes) (k := bytes.length) (a := 0) (by
    intro j hj
    rw [Memory.holds_iff]
    exact ⟨bytes[j], by simp [Memory.ofBytes_read, hj]⟩)
  obtain ⟨hl, hr⟩ := Memory.readRange_ok hbs
  rw [hbs]
  congr 1
  refine List.ext_getElem hl ?_
  intro j h1 h2
  have := hr j h1
  simp only [Nat.zero_add, Memory.ofBytes_read, h2, dif_pos, Except.ok.injEq] at this
  exact this.symm

/-- Everything a run of writes can do when it answers a space: the size and the canonical form stay, the bytes stand at their
addresses, every other address is as before. -/
theorem Memory.writeBytes_ok {m m' : Memory} {bs : List Byte} {a : Nat} (h : m.writeBytes bs a = .ok m') :
    m'.size = m.size ∧ (m.wf = true → m'.wf = true) ∧ (∀ j (hj : j < bs.length), m'.read (a + j) = .ok bs[j]) ∧
      ∀ x, x < a ∨ a + bs.length ≤ x → m'.read x = m.read x := by
  induction bs generalizing m a with
  | nil =>
    simp only [Memory.writeBytes, Except.ok.injEq] at h
    subst h
    exact ⟨rfl, id, by simp, fun _ _ => rfl⟩
  | cons b bs ih =>
    simp only [Memory.writeBytes] at h
    cases hw : m.write a b with
    | error x => simp [hw] at h
    | ok m1 =>
      simp only [hw] at h
      obtain ⟨h1, h2, h3, h4⟩ := ih h
      refine ⟨h1.trans (Memory.write_size hw), fun hm => h2 (Memory.write_wf hm hw), ?_, ?_⟩
      · intro j hj
        cases j with
        | zero => rw [Nat.add_zero, h4 a (Or.inl (Nat.lt_succ_self a))]; simpa using Memory.read_write_same hw
        | succ j =>
          have := h3 j (by simpa using hj)
          rw [show a + (j + 1) = a + 1 + j by omega]
          simpa using this
      · intro x hx
        simp only [List.length_cons] at hx
        rw [h4 x (by omega), Memory.read_write_other hw (by omega)]

/-- A run of writes answers a space when it ends inside it. -/
theorem Memory.writeBytes_total (m : Memory) (bs : List Byte) (a : Nat) (h : a + bs.length ≤ m.size) :
    ∃ m', m.writeBytes bs a = .ok m' := by
  induction bs generalizing m a with
  | nil => exact ⟨m, rfl⟩
  | cons b bs ih =>
    simp only [List.length_cons] at h
    have hw := Memory.write_ok (m := m) (v := b) (show a < m.size by omega)
    obtain ⟨m', hm'⟩ := ih { m with cells := cellsWrite m.cells a b } (a + 1) (by simpa using (by omega : a + 1 + bs.length ≤ m.size))
    exact ⟨m', by simp only [Memory.writeBytes, hw]; exact hm'⟩

/-- A stream reads the bytes at its addresses, at most `k` of them. -/
theorem Memory.stream_spec (m : Memory) (k a : Nat) :
    (m.stream k a).length ≤ k ∧ ∀ j (hj : j < (m.stream k a).length), m.read (a + j) = .ok (m.stream k a)[j] := by
  induction k generalizing a with
  | zero => simp [Memory.stream]
  | succ k ih =>
    cases hr : m.read a with
    | error x => simp [Memory.stream, hr]
    | ok b =>
      obtain ⟨h1, h2⟩ := ih (a + 1)
      refine ⟨by simp [Memory.stream, hr, h1], ?_⟩
      intro j hj
      simp only [Memory.stream, hr, List.length_cons] at hj
      cases j with
      | zero => simp [Memory.stream, hr]
      | succ j =>
        have := h2 j (by omega)
        simp only [Memory.stream, hr, List.getElem_cons_succ]
        rwa [show a + (j + 1) = a + 1 + j by omega]

/-- A stream that ends early ends at an address that cannot be read. -/
theorem Memory.stream_stops (m : Memory) (k a : Nat) (h : (m.stream k a).length < k) :
    m.holds (a + (m.stream k a).length) = false := by
  induction k generalizing a with
  | zero => omega
  | succ k ih =>
    cases hr : m.read a with
    | error x => simp [Memory.stream, hr, Memory.holds]
    | ok b =>
      simp only [Memory.stream, hr, List.length_cons] at h ⊢
      have := ih (a + 1) (by omega)
      rwa [show a + ((m.stream k (a + 1)).length + 1) = a + 1 + (m.stream k (a + 1)).length by omega]

/-- Where a ranged read answers bytes, the stream is those bytes. -/
theorem Memory.stream_of_readRange {m : Memory} {k a : Nat} {bs : List Byte} (h : m.readRange k a = .ok bs) :
    m.stream k a = bs := by
  induction k generalizing a bs with
  | zero => simpa [Memory.readRange, Memory.stream] using h
  | succ k ih =>
    simp only [Memory.readRange] at h
    cases hr : m.read a with
    | error x => simp [hr] at h
    | ok b =>
      cases hs : m.readRange k (a + 1) with
      | error x => simp [hr, hs] at h
      | ok rest =>
        simp only [hr, hs, Except.ok.injEq] at h
        subst h
        simp [Memory.stream, hr, ih hs]

/-- Everything the copy loop can do when it answers a space (R185): the size and the canonical form stay, addresses outside
the destination are as before, and each destination byte is the byte the finished space has at the matching source address. -/
theorem Memory.copyBytes_ok {m m' : Memory} {k src dst : Nat} (h : m.copyBytes k src dst = .ok m') (hlt : src < dst) :
    m'.size = m.size ∧ (m.wf = true → m'.wf = true) ∧
      (∀ j, j < k → m'.holds (dst + j) = true ∧ m'.read (dst + j) = m'.read (src + j)) ∧
      ∀ x, x < dst ∨ dst + k ≤ x → m'.read x = m.read x := by
  induction k generalizing m src dst with
  | zero =>
    simp only [Memory.copyBytes, Except.ok.injEq] at h
    subst h
    exact ⟨rfl, id, fun j hj => absurd hj (Nat.not_lt_zero j), fun _ _ => rfl⟩
  | succ k ih =>
    simp only [Memory.copyBytes] at h
    cases hr : m.read src with
    | error x => simp [hr] at h
    | ok b =>
      cases hw : m.write dst b with
      | error x => simp [hr, hw] at h
      | ok m1 =>
        simp only [hr, hw] at h
        obtain ⟨h1, h2, h3, h4⟩ := ih h (by omega)
        have hd : m'.read dst = .ok b := by rw [h4 dst (Or.inl (Nat.lt_succ_self dst))]; exact Memory.read_write_same hw
        have hs : m'.read src = .ok b := by
          rw [h4 src (Or.inl (by omega)), Memory.read_write_other hw (by omega)]; exact hr
        refine ⟨h1.trans (Memory.write_size hw), fun hm => h2 (Memory.write_wf hm hw), ?_, ?_⟩
        · intro j hj
          cases j with
          | zero => exact ⟨Memory.holds_iff.2 ⟨b, by simpa using hd⟩, by simp [hd, hs]⟩
          | succ j =>
            have := h3 j (by omega)
            rwa [show dst + (j + 1) = dst + 1 + j by omega, show src + (j + 1) = src + 1 + j by omega]
        · intro x hx
          rw [h4 x (by omega), Memory.read_write_other hw (by omega)]

/-- The copy loop answers a space when its source starts in written bytes that reach the destination and it ends inside the
space. -/
theorem Memory.copyBytes_total (m : Memory) (k src dst : Nat) (hlt : src < dst) (hsz : dst + k ≤ m.size)
    (hsrc : ∀ x, src ≤ x → x < dst → m.holds x = true) : ∃ m', m.copyBytes k src dst = .ok m' := by
  induction k generalizing m src dst with
  | zero => exact ⟨m, rfl⟩
  | succ k ih =>
    obtain ⟨b, hb⟩ := Memory.holds_iff.1 (hsrc src (le_refl _) hlt)
    have hw := Memory.write_ok (m := m) (v := b) (show dst < m.size by omega)
    obtain ⟨m', hm'⟩ := ih { m with cells := cellsWrite m.cells dst b } (src + 1) (dst + 1) (by omega)
      (show dst + 1 + k ≤ m.size by omega) (by
        intro x h1 h2
        rw [Memory.holds_iff]
        by_cases hx : x = dst
        · exact ⟨b, by rw [hx]; exact Memory.read_write_same hw⟩
        · obtain ⟨c, hc⟩ := Memory.holds_iff.1 (hsrc x (by omega) (by omega))
          exact ⟨c, by rw [Memory.read_write_other hw hx]; exact hc⟩)
    exact ⟨m', by simp only [Memory.copyBytes, hb, hw]; exact hm'⟩

end Sys2Proof.Machine
end

