-- ==== Sys2Proof/Laws/Ops.lean ====
section
/-! SUPPORT. Inversion of the ways moves are chained: what must have happened when a chain answers a next state. -/

namespace Sys2Proof.Machine

open Sys2Proof

@[simp] theorem andThen_next {α β : Type} (a : α) (f : α → Result β) : andThen (.next a) f = f a := rfl

@[simp] theorem andThen_fault {α β : Type} (x : Fault) (f : α → Result β) : andThen (.fault x) f = .fault x := rfl

@[simp] theorem andThen_refused {α β : Type} (x : Refusal) (f : α → Result β) : andThen (.refused x) f = .refused x := rfl

@[simp] theorem access_ok {α β : Type} (a : α) (f : α → Result β) : access (.ok a) f = f a := rfl

@[simp] theorem access_error {α β : Type} (x : Fault) (f : α → Result β) : access (.error x) f = .fault x := rfl

theorem andThen_eq_next {α β : Type} {r : Result α} {f : α → Result β} {b : β} :
    andThen r f = .next b ↔ ∃ a, r = .next a ∧ f a = .next b := by
  cases r <;> simp [andThen]

theorem access_eq_next {α β : Type} {r : Except Fault α} {f : α → Result β} {b : β} :
    access r f = .next b ↔ ∃ a, r = .ok a ∧ f a = .next b := by
  cases r <;> simp [access]

theorem andThen_assoc {α β γ : Type} (r : Result α) (f : α → Result β) (g : β → Result γ) :
    andThen (andThen r f) g = andThen r fun a => andThen (f a) g := by
  cases r <;> rfl

/-- Everything a move of `FLT` can do to the machine. -/
theorem onFlt_eq_next {r : Result Flt} {s t : State} : onFlt r s = .next t ↔ ∃ f, r = .next f ∧ t = { s with flt := f } := by
  rw [onFlt, andThen_eq_next]
  constructor <;> rintro ⟨f, h1, h2⟩ <;> exact ⟨f, h1, by simpa using h2.symm⟩

/-- Everything a move of `ENC` can do to the machine. -/
theorem onEnc_eq_next {r : Result Enc} {s t : State} : onEnc r s = .next t ↔ ∃ e, r = .next e ∧ t = { s with enc := e } := by
  rw [onEnc, andThen_eq_next]
  constructor <;> rintro ⟨e, h1, h2⟩ <;> exact ⟨e, h1, by simpa using h2.symm⟩

/-- Everything a move of `DEC` can do to the machine. -/
theorem onDec_eq_next {r : Result Dec} {s t : State} : onDec r s = .next t ↔ ∃ d, r = .next d ∧ t = { s with dec := d } := by
  rw [onDec, andThen_eq_next]
  constructor <;> rintro ⟨d, h1, h2⟩ <;> exact ⟨d, h1, by simpa using h2.symm⟩

/-- A host access to an engine answers a next state only when that engine is idle. -/
theorem whenIdle_eq_next {e : Engine} {s t : State} {r : Result State} :
    whenIdle e s r = .next t ↔ (statusOf s e).busy = false ∧ r = .next t := by
  unfold whenIdle
  cases (statusOf s e).busy <;> simp

/-- In its turn a busy engine makes one move, on the state with the host's action taken off. -/
theorem step_of_turn {e : Engine} {s t : State} (ht : TurnOf e s t) (hb : (statusOf s e).busy = true) :
    step s = engineTurn e t := by
  obtain ⟨hh, ht⟩ | ⟨hh, rfl, hf, he⟩ := ht
  · rw [ht]
    simp only [step, nextMove, hh, hostTurn]
  · cases e with
    | flt => simp [step, nextMove, hh, show t.flt.st.busy = true from hb]
    | enc => simp [step, nextMove, hh, hf, show t.enc.st.busy = true from hb]
    | dec => simp [step, nextMove, hh, hf, he]

/-- What `exec` does with each instruction, by engine: nothing outside that engine changes. -/
theorem exec_eq_next {i : Instr} {s t : State} (h : exec i s = .next t) :
    (∃ f, t = { s with flt := f }) ∨ (∃ e, t = { s with enc := e }) ∨ ∃ d, t = { s with dec := d } := by
  cases i with
  | ctrl tags => obtain ⟨d, -, rfl⟩ := onDec_eq_next.1 h; exact .inr (.inr ⟨d, rfl⟩)
  | literal payload => obtain ⟨d, -, rfl⟩ := onDec_eq_next.1 h; exact .inr (.inr ⟨d, rfl⟩)
  | copyShort offset c => obtain ⟨d, -, rfl⟩ := onDec_eq_next.1 h; exact .inr (.inr ⟨d, rfl⟩)
  | copyLong offset hh ext => obtain ⟨d, -, rfl⟩ := onDec_eq_next.1 h; exact .inr (.inr ⟨d, rfl⟩)
  | predA => obtain ⟨f, -, rfl⟩ := onFlt_eq_next.1 h; exact .inl ⟨f, rfl⟩
  | predB => obtain ⟨f, -, rfl⟩ := onFlt_eq_next.1 h; exact .inl ⟨f, rfl⟩
  | predC => obtain ⟨f, -, rfl⟩ := onFlt_eq_next.1 h; exact .inl ⟨f, rfl⟩
  | filterRow w r => obtain ⟨f, -, rfl⟩ := onFlt_eq_next.1 h; exact .inl ⟨f, rfl⟩
  | filterImage => obtain ⟨f, -, rfl⟩ := onFlt_eq_next.1 h; exact .inl ⟨f, rfl⟩
  | compress => obtain ⟨e, -, rfl⟩ := onEnc_eq_next.1 h; exact .inr (.inl ⟨e, rfl⟩)
  | decompress => obtain ⟨d, -, rfl⟩ := onDec_eq_next.1 h; exact .inr (.inr ⟨d, rfl⟩)

end Sys2Proof.Machine
end

