-- ==== Sys2Proof/Laws/Compress.lean ====
section
/-! SUPPORT. What each operation of `ENC` can do, said once. -/

namespace Sys2Proof.Machine

open Sys2Proof

theorem prefixLen_le_cap (cap : Nat) (xs ys : List Byte) : prefixLen cap xs ys ≤ cap := by
  induction cap generalizing xs ys with
  | zero => simp [prefixLen]
  | succ cap ih =>
    cases xs with
    | nil => simp [prefixLen]
    | cons x xs =>
      cases ys with
      | nil => simp [prefixLen]
      | cons y ys =>
        simp only [prefixLen]
        split
        · have := ih xs ys; omega
        · omega

/-- The bytes counted by a common prefix are equal (R150). -/
theorem prefixLen_agrees {cap : Nat} {xs ys : List Byte} {j : Nat} (h : j < prefixLen cap xs ys) : xs[j]? = ys[j]? := by
  induction cap generalizing xs ys j with
  | zero => simp [prefixLen] at h
  | succ cap ih =>
    cases xs with
    | nil => simp [prefixLen] at h
    | cons x xs =>
      cases ys with
      | nil => simp [prefixLen] at h
      | cons y ys =>
        simp only [prefixLen] at h
        split at h
        · rename_i hxy; subst hxy
          cases j with
          | zero => rfl
          | succ j => simpa using ih (by omega)
        · omega

/-- Everything `FLUSH` can do when it answers a next state (R157). -/
theorem encFlush_eq_next {e g : Enc} (h : encFlush e = .next g) :
    ∃ out, e.out.writeBytes (e.acc :: e.q) e.wp = .ok out ∧
      g = { e with out := out, wp := e.wp + (1 + e.q.length), acc := 0, nq := 0, q := [] } := by
  obtain ⟨out, ho, h⟩ := access_eq_next.1 h
  exact ⟨out, ho, by simpa using h.symm⟩

/-- Everything `PUSH` can do: queue the block, and with the eighth flush the group (R156). -/
theorem encPush_cases (tag : Bool) (body : List Byte) (e : Enc) :
    (e.nq + 1 ≠ 8 ∧
        encPush tag body e =
          .next { e with acc := accWithTag e.acc tag e.nq, q := e.q ++ body, nq := e.nq + 1 }) ∨
      (e.nq + 1 = 8 ∧
        encPush tag body e = encFlush { e with acc := accWithTag e.acc tag e.nq, q := e.q ++ body, nq := e.nq + 1 }) := by
  unfold encPush groupFull
  by_cases h : e.nq + 1 = 8
  · exact .inr ⟨h, by simp [h, Config.tagsPerCtrl]⟩
  · exact .inl ⟨h, by simp [h, Config.tagsPerCtrl]⟩

/-- `EMIT_LITERAL` inside the format's range is a `PUSH` (R154). -/
theorem encEmitLiteral_inRange {bytes : List Byte} {e : Enc} {next : Enc → Result Enc}
    (h : 1 ≤ bytes.length ∧ bytes.length ≤ 255) :
    encEmitLiteral bytes e next = andThen (encPush false (literalBody bytes) e) next := by
  unfold encEmitLiteral
  rw [if_neg (by simp only [Config.maxLiteral]; omega)]

/-- `EMIT_COPY` inside the format's ranges is a `PUSH` (R155). -/
theorem encEmitCopy_inRange {off len : Nat} {e : Enc} {next : Enc → Result Enc}
    (h : 4 ≤ len ∧ len ≤ 2051 ∧ 1 ≤ off ∧ off ≤ 4095) :
    encEmitCopy off len e next = andThen (encPush true (copyBody off len) e) next := by
  unfold encEmitCopy
  rw [if_neg (by simp only [Config.minMatch, Config.maxMatch, Config.window]; omega)]

end Sys2Proof.Machine
end

