-- ==== Sys2Proof/Laws/Decompress.lean ====
section
/-! SUPPORT. What each operation of `DEC` can do when it answers a next state, said once. -/

namespace Sys2Proof.Machine

open Sys2Proof

/-- Taking input either raises `DEC_INPUT_EXHAUSTED` or goes on past the bytes (R211). -/
theorem decTake_cases (k : Nat) (d : Dec) (next : Dec → Result Dec) :
    (d.m < d.ip + k ∧ decTake k d next = .next (decRaise .decInputExhausted d)) ∨
      (d.ip + k ≤ d.m ∧ decTake k d next = next { d with ip := d.ip + k }) := by
  unfold decTake
  split
  · exact .inl ⟨‹_›, rfl⟩
  · exact .inr ⟨by omega, rfl⟩

/-- Everything `CTRL` can do (R180). -/
theorem decCtrl_cases (tags : Byte) (d : Dec) :
    (d.m < d.ip + 1 ∧ decCtrl tags d = .next (decRaise .decInputExhausted d)) ∨
      (d.ip + 1 ≤ d.m ∧ decCtrl tags d = .next { d with ip := d.ip + 1, ctrl := ctrlReload tags, phase := .body }) :=
  decTake_cases 1 d _

/-- Everything `LITERAL` can do when it answers a next state (R182). -/
theorem decLiteral_cases {payload : List Byte} {d d' : Dec} (h : decLiteral payload d = .next d') :
    (d.m < d.ip + (1 + payload.length) ∧ d' = decRaise .decInputExhausted d) ∨
      (d.ip + (1 + payload.length) ≤ d.m ∧ d.l < d.dst + payload.length ∧
        d' = decRaise .decLiteralDestRange { d with ip := d.ip + (1 + payload.length) }) ∨
      (d.ip + (1 + payload.length) ≤ d.m ∧ d.dst + payload.length ≤ d.l ∧
        ∃ out, d.out.writeBytes payload d.dst = .ok out ∧
          d' =
            { d with
              ip := d.ip + (1 + payload.length), out := out, dst := d.dst + payload.length,
              length := BitVec.ofNat 12 payload.length, phase := .loop }) := by
  unfold decLiteral at h
  obtain ⟨hm, he⟩ | ⟨hm, he⟩ := decTake_cases (1 + payload.length) d _ <;> rw [he] at h
  · exact .inl ⟨hm, by simpa using h.symm⟩
  · split at h
    · exact .inr (.inl ⟨hm, ‹_›, by simpa using h.symm⟩)
    · rename_i hl
      obtain ⟨out, ho, h⟩ := access_eq_next.1 h
      exact .inr (.inr ⟨hm, Nat.le_of_not_lt hl, out, ho, by simpa using h.symm⟩)

/-- Everything `COPY_BYTES` can do when it answers a next state (R185). -/
theorem decCopyBytes_cases {off len : Nat} {d d' : Dec} (h : decCopyBytes off len d = .next d') :
    ((off < 1 ∨ d.dst < off) ∧ d' = decRaise .decCopySourceRange d) ∨
      (1 ≤ off ∧ off ≤ d.dst ∧ d.l < d.dst + len ∧ d' = decRaise .decCopyDestRange d) ∨
      (1 ≤ off ∧ off ≤ d.dst ∧ d.dst + len ≤ d.l ∧
        ∃ out, d.out.copyBytes len (d.dst - off) d.dst = .ok out ∧
          d' = { d with out := out, dst := d.dst + len, phase := .loop }) := by
  unfold decCopyBytes at h
  split at h
  · exact .inl ⟨‹_›, by simpa using h.symm⟩
  · split at h
    · exact .inr (.inl ⟨by omega, by omega, ‹_›, by simpa using h.symm⟩)
    · obtain ⟨out, ho, h⟩ := access_eq_next.1 h
      exact .inr (.inr ⟨by omega, by omega, by omega, out, ho, by simpa using h.symm⟩)

/-- The engine as `COPY_BYTES` finds it: the body's bytes taken and its operands assembled (R183, R184). -/
def decOperands (size : Nat) (word : Word) (count : BitVec 11) (offset : BitVec 12) (d : Dec) : Dec :=
  { d with
    ip := d.ip + size, word := word, count := count, offset := offset, length := BitVec.ofNat 12 (copyLength count) }

/-- A copy either lacks input or is `COPY_BYTES` on its operands (R183, R184). -/
theorem decCopy_cases (size : Nat) (word : Word) (count : BitVec 11) (offset : BitVec 12) (d : Dec) :
    (d.m < d.ip + size ∧ decCopy size word count offset d = .next (decRaise .decInputExhausted d)) ∨
      (d.ip + size ≤ d.m ∧
        decCopy size word count offset d =
          decCopyBytes offset.toNat (copyLength count) (decOperands size word count offset d)) :=
  decTake_cases size d _

/-- A copy's length fits its register and is 4..2051 (R32, R96). -/
theorem copyLength_range (count : BitVec 11) : 4 ≤ copyLength count ∧ copyLength count ≤ 2051 := by
  have := count.isLt
  simp only [copyLength, Config.minMatch]
  omega

end Sys2Proof.Machine
end

