-- ==== Sys2Proof/Laws/Filter.lean ====
section
/-! SUPPORT. What each operation of `FLT` can do, said once. -/

namespace Sys2Proof.Machine

open Sys2Proof

theorem residualA_length (cur : List Byte) : (residualA cur).length = cur.length := by
  simp [residualA, Config.pixelSize]; omega

theorem residualB_length {prev cur : List Byte} (h : prev.length = cur.length) :
    (residualB prev cur).length = cur.length := by simp [residualB, h]

theorem residualC_length {prev cur : List Byte} (h : prev.length = cur.length) :
    (residualC prev cur).length = cur.length := by
  simp [residualC, Config.pixelSize, h]; omega

theorem mag_le (b : Byte) : mag b ≤ 127 := by
  unfold mag
  split
  · exact le_refl _
  · split <;> omega

/-- A row's cost is at most 127 a byte (R25, R125). -/
theorem costOf_le (res : List Byte) : costOf res ≤ 127 * res.length := by
  induction res with
  | nil => simp [costOf]
  | cons b bs ih => have := mag_le b; simp only [costOf, List.length_cons]; omega

/-- Everything the entry of a candidate can do (R126, R129). -/
theorem fltConsider_cases (x : Pred) (cand : List Byte) (f : Flt) :
    ((x = .a ∨ costFor x cand < f.bestCost) ∧
        fltConsider x cand f =
          { f with cand := cand, cost := costFor x cand, best := x, bestCost := costFor x cand, res := cand }) ∨
      ((x ≠ .a ∧ f.bestCost ≤ costFor x cand) ∧ fltConsider x cand f = { f with cand := cand, cost := costFor x cand }) := by
  unfold fltConsider cheaper
  by_cases h : x = .a ∨ costFor x cand < f.bestCost
  · exact .inl ⟨h, by simp [h]⟩
  · rw [not_or, Nat.not_lt] at h
    exact .inr ⟨h, by simp [h]⟩

/-- Everything `PRED_A` can do when it answers a next state (R121). -/
theorem fltPredA_eq_next {f g : Flt} (h : fltPredA f = .next g) :
    ∃ cur, fltRowBytes f f.row = .ok cur ∧
      g = { fltConsider .a (residualA cur) f with phase := if f.row = 0 then .record else .predictor .b } := by
  obtain ⟨cur, hc, h⟩ := access_eq_next.1 h
  exact ⟨cur, hc, by simpa using h.symm⟩

/-- Everything `PRED_B` can do when it answers a next state (R122). -/
theorem fltPredB_eq_next {f g : Flt} (h : fltPredB f = .next g) :
    f.row ≠ 0 ∧ ∃ cur prev, fltRowBytes f f.row = .ok cur ∧ fltRowBytes f (f.row - 1) = .ok prev ∧
      g = { fltConsider .b (residualB prev cur) f with phase := .predictor .c } := by
  unfold fltPredB at h
  split at h
  · cases h
  · obtain ⟨cur, hc, h⟩ := access_eq_next.1 h
    obtain ⟨prev, hp, h⟩ := access_eq_next.1 h
    exact ⟨‹_›, cur, prev, hc, hp, by simpa using h.symm⟩

/-- Everything `PRED_C` can do when it answers a next state (R123). -/
theorem fltPredC_eq_next {f g : Flt} (h : fltPredC f = .next g) :
    f.row ≠ 0 ∧ ∃ cur prev, fltRowBytes f f.row = .ok cur ∧ fltRowBytes f (f.row - 1) = .ok prev ∧
      g = { fltConsider .c (residualC prev cur) f with phase := .record } := by
  unfold fltPredC at h
  split at h
  · cases h
  · obtain ⟨cur, hc, h⟩ := access_eq_next.1 h
    obtain ⟨prev, hp, h⟩ := access_eq_next.1 h
    exact ⟨‹_›, cur, prev, hc, hp, by simpa using h.symm⟩

/-- Everything the end of a row can do when it answers a next state (R131). -/
theorem fltRecord_eq_next {p : Params} {f g : Flt} (h : fltRecord p f = .next g) :
    ∃ fs fs', f.fs.write (8 + f.row) (idOfPred p f.best) = .ok fs ∧
      fs.writeBytes f.res (8 + f.h.toNat + f.row * fltStride f) = .ok fs' ∧
      g = { fltName p f with fs := fs', row := f.row + 1, phase := .predictor .a } := by
  obtain ⟨fs, h1, h⟩ := access_eq_next.1 h
  obtain ⟨fs', h2, h⟩ := access_eq_next.1 h
  exact ⟨fs, fs', h1, h2, by simpa using h.symm⟩

/-- A row of samples has `stride` bytes (R61). -/
theorem fltRowBytes_length {f : Flt} {r : Nat} {bs : List Byte} (h : fltRowBytes f r = .ok bs) : bs.length = fltStride f :=
  (Memory.readRange_ok h).1

end Sys2Proof.Machine
end

