-- ==== Sys2Proof/Laws/PerInstr.lean ====
section
/-! SUPPORT. Statements made once per instruction. -/

namespace Sys2Proof.Laws

open Sys2Proof

/-- An instruction's encoding is as long as the instruction says it is (R97). -/
def EncodedLength.Statement (i : Instr) : Prop := ∀ p : Params, (encode p i).length = i.size

theorem EncodedLength.ctrl (tags : Byte) : EncodedLength.Statement (.ctrl tags) := fun _ => rfl

theorem EncodedLength.literal (payload : List Byte) : EncodedLength.Statement (.literal payload) := fun _ => by
  simp [encode, Instr.size, Nat.add_comm]

theorem EncodedLength.copyShort (offset : BitVec 12) (c : BitVec 3) : EncodedLength.Statement (.copyShort offset c) :=
  fun _ => rfl

theorem EncodedLength.copyLong (offset : BitVec 12) (h : BitVec 3) (ext : Byte) :
    EncodedLength.Statement (.copyLong offset h ext) := fun _ => rfl

theorem EncodedLength.predA : EncodedLength.Statement .predA := fun _ => rfl

theorem EncodedLength.predB : EncodedLength.Statement .predB := fun _ => rfl

theorem EncodedLength.predC : EncodedLength.Statement .predC := fun _ => rfl

theorem EncodedLength.filterRow (w r : BitVec 16) : EncodedLength.Statement (.filterRow w r) := fun _ => rfl

theorem EncodedLength.filterImage : EncodedLength.Statement .filterImage := fun _ => rfl

theorem EncodedLength.compress : EncodedLength.Statement .compress := fun _ => rfl

theorem EncodedLength.decompress : EncodedLength.Statement .decompress := fun _ => rfl

end Sys2Proof.Laws
end

