-- ==== Sys2Proof/Laws/Words.lean ====
section
/-! SUPPORT. Words and their fields in arithmetic terms: what the decoder's and encoder's bit operations compute. -/

namespace Sys2Proof.Machine

open Sys2Proof

/-- The little-endian word is `lo + 256 * hi` (R10). -/
theorem wordOfBytes_toNat (lo hi : Byte) : (wordOfBytes lo hi).toNat = lo.toNat + 256 * hi.toNat := by
  have hl := lo.isLt
  have hh := hi.isLt
  simp only [wordOfBytes, BitVec.toNat_or, BitVec.toNat_shiftLeft, BitVec.toNat_setWidth, Nat.shiftLeft_eq]
  rw [show lo.toNat % 2 ^ 16 = lo.toNat by omega,
    show hi.toNat % 2 ^ 16 * 2 ^ 8 % 2 ^ 16 = hi.toNat <<< 8 by rw [Nat.shiftLeft_eq]; omega, Nat.or_comm,
    ← Nat.shiftLeft_add_eq_or_of_lt (by omega), Nat.shiftLeft_eq]
  omega

/-- A word is put together again from its two bytes. -/
theorem wordOfBytes_bytes (w : Word) : wordOfBytes (loByte w) (hiByte w) = w := by
  apply BitVec.eq_of_toNat_eq
  have := w.isLt
  simp only [wordOfBytes_toNat, loByte, hiByte, BitVec.toNat_setWidth, BitVec.toNat_ushiftRight,
    Nat.shiftRight_eq_div_pow]
  omega

/-- The copy word is `offset * 16 + 8 * S + c` (R93). -/
theorem copyWord_toNat (offset : BitVec 12) (short : Bool) (c : BitVec 3) :
    (copyWord offset short c).toNat = offset.toNat * 16 + (if short then 8 else 0) + c.toNat := by
  have ho := offset.isLt
  have hc := c.isLt
  have h1 : (offset.toNat % 2 ^ 16) <<< 4 % 2 ^ 16 = offset.toNat <<< 4 := by simp only [Nat.shiftLeft_eq]; omega
  have h2 : c.toNat % 2 ^ 16 = c.toNat := by omega
  have h3 : offset.toNat <<< 4 + 8 = (offset.toNat * 2 + 1) <<< 3 := by simp only [Nat.shiftLeft_eq]; omega
  have key : ∀ k : Nat, k = 0 ∨ k = 8 → offset.toNat <<< 4 ||| k ||| c.toNat = offset.toNat * 16 + k + c.toNat := by
    rintro k (rfl | rfl)
    · rw [Nat.or_zero, ← Nat.shiftLeft_add_eq_or_of_lt (by omega), Nat.shiftLeft_eq]
      omega
    · rw [← Nat.shiftLeft_add_eq_or_of_lt (show 8 < 2 ^ 4 by omega), h3, ← Nat.shiftLeft_add_eq_or_of_lt (by omega),
        Nat.shiftLeft_eq]
      omega
  simp only [copyWord, BitVec.toNat_or, BitVec.toNat_shiftLeft, BitVec.toNat_setWidth, h1, h2]
  cases short
  · exact key 0 (.inl rfl)
  · exact key 8 (.inr rfl)

theorem offsetField_toNat (w : Word) : (offsetField w).toNat = w.toNat / 16 := by
  have := w.isLt
  simp only [offsetField, BitVec.toNat_setWidth, BitVec.toNat_ushiftRight, Nat.shiftRight_eq_div_pow]
  omega

theorem countField_toNat (w : Word) : (countField w).toNat = w.toNat % 8 := by
  simp only [countField, BitVec.toNat_setWidth]

theorem formShort_eq (w : Word) : formShort w = decide (w.toNat / 8 % 2 = 1) := by
  rw [formShort, BitVec.getLsbD, Nat.testBit_eq_decide_div_mod_eq]

/-- The three fields of a copy word are read back. -/
theorem copyWord_fields (offset : BitVec 12) (short : Bool) (c : BitVec 3) :
    offsetField (copyWord offset short c) = offset ∧ formShort (copyWord offset short c) = short ∧
      countField (copyWord offset short c) = c := by
  have ho := offset.isLt
  have hc := c.isLt
  refine ⟨BitVec.eq_of_toNat_eq ?_, ?_, BitVec.eq_of_toNat_eq ?_⟩
  · rw [offsetField_toNat, copyWord_toNat]; split <;> omega
  · rw [formShort_eq, copyWord_toNat]; cases short <;> simp <;> omega
  · rw [countField_toNat, copyWord_toNat]; split <;> omega

theorem countShort_toNat (c : BitVec 3) : (countShort c).toNat = c.toNat := by
  have := c.isLt
  simp only [countShort, BitVec.toNat_setWidth]
  omega

/-- The long form's count is `h * 256 + ext` (R96). -/
theorem countLong_toNat (h : BitVec 3) (ext : Byte) : (countLong h ext).toNat = h.toNat * 256 + ext.toNat := by
  have hl := h.isLt
  have he := ext.isLt
  simp only [countLong, BitVec.toNat_or, BitVec.toNat_shiftLeft, BitVec.toNat_setWidth, Nat.shiftLeft_eq]
  rw [show ext.toNat % 2 ^ 11 = ext.toNat by omega,
    show h.toNat % 2 ^ 11 * 2 ^ 8 % 2 ^ 11 = h.toNat <<< 8 by rw [Nat.shiftLeft_eq]; omega,
    ← Nat.shiftLeft_add_eq_or_of_lt (by omega), Nat.shiftLeft_eq]

/-- The tag register after a reload is `256 + byte` (R180). -/
theorem ctrlReload_toNat (tags : Byte) : (ctrlReload tags).toNat = 256 + tags.toNat := by
  have ht := tags.isLt
  simp only [ctrlReload, BitVec.toNat_or, BitVec.toNat_setWidth]
  rw [Nat.or_comm, show tags.toNat % 2 ^ 9 = tags.toNat by omega, show Config.ctrlReloadBit.toNat = 1 <<< 8 by rfl,
    ← Nat.shiftLeft_add_eq_or_of_lt (by omega), Nat.shiftLeft_eq]

theorem ctrlShift_toNat (ctrl : BitVec 9) : (ctrlShift ctrl).toNat = ctrl.toNat / 2 := by
  simp only [ctrlShift, BitVec.toNat_ushiftRight, Nat.shiftRight_eq_div_pow, pow_one]

end Sys2Proof.Machine
end

