-- ==== Sys2Proof/Tests/Slice0.lean ====
section
/-! SUPPORT. Tests of the model against the vectors of 95_test_vectors.md, and for every statement with hypotheses a witness
that meets them. Expected values are the spec's; the vector's name stands before each test. -/

namespace Sys2Proof.Tests

open Sys2Proof Sys2Proof.Machine

/-! ### Helpers -/

/-- The answer is a next state with this property. -/
def ends (r : Result State) (p : State → Bool) : Bool :=
  match r with
  | .next t => p t
  | .fault _ => false
  | .refused _ => false

/-- The engine has ended well with exactly these bytes (R251). -/
def gives (r : Result State) (e : Engine) (bytes : List Byte) : Bool :=
  ends r fun t =>
    match observe t e with
    | .ok (.ok out) => decide (out = bytes)
    | .ok (.failed _) => false
    | .ok .idle => false
    | .ok .running => false
    | .error _ => false

/-- The engine has ended with this fault code (R251). -/
def fails (r : Result State) (e : Engine) (code : BitVec 3) : Bool :=
  ends r fun t =>
    match observe t e with
    | .ok (.ok _) => false
    | .ok (.failed c) => decide (c = code)
    | .ok .idle => false
    | .ok .running => false
    | .error _ => false

/-- The machine with an idle `DEC` that has these bytes as its input. -/
def decWith (bytes : List Byte) (l : Nat) : State :=
  { State.reset with dec := { Dec.reset with m := bytes.length, l := l, inp := Memory.ofBytes bytes } }

/-- The machine with an idle `ENC` that has these bytes as its input. -/
def encWith (bytes : List Byte) : State :=
  { State.reset with enc := { Enc.reset with n := bytes.length, inp := Memory.ofBytes bytes } }

/-- The machine with an idle `FLT` that has this image as its input. -/
def fltWith (w h : BitVec 16) (pix : List Byte) : State :=
  { State.reset with flt := { Flt.reset with w := w, h := h, pix := Memory.ofBytes pix } }

/-- `DEC` in the middle of a command: these bytes next in its input, these bytes produced, `l` in all. -/
def decAt (bytes produced : List Byte) (l : Nat) (phase : DecPhase) (ctrl : BitVec 9) : State :=
  { State.reset with
    dec :=
      { Dec.reset with
        st := statusStarted 0, m := bytes.length, l := l, inp := Memory.ofBytes bytes, dst := produced.length,
        out := { size := l, cells := cellsOf 0 produced }, phase := phase, ctrl := ctrl } }

/-- `FLT` in the middle of a command, at a line of its row loop. -/
def fltAt (w h : BitVec 16) (pix : List Byte) (row : Nat) (phase : FltPhase) : State :=
  { State.reset with
    flt :=
      { Flt.reset with
        st := statusStarted 0, w := w, h := h, pix := Memory.ofBytes pix, row := row, phase := phase, bestCost := 1000,
        fs := Memory.alloc (8 + h.toNat + h.toNat * (w.toNat * 3)), res := List.replicate (w.toNat * 3) 0 } }

/-- The same machine with its host about to let an engine move. -/
def letMove (e : Engine) (s : State) : State := { s with host := [.move e] }

/-- `ENC` in the middle of a command on these bytes. -/
def encAt (bytes : List Byte) (src : Nat) (acc : Byte) (nq : Nat) (q : List Byte) : State :=
  { encWith bytes with
    enc := { encBegin (encWith bytes).enc with st := statusStarted 0, src := src, acc := acc, nq := nq, q := q } }

/-- "abcdabcd", the input of V1. -/
def inputV1 : List Byte := [0x61, 0x62, 0x63, 0x64, 0x61, 0x62, 0x63, 0x64]

/-- The image of S4. -/
def imageS4 : List Byte := [0x0A, 0x14, 0x1E, 0x28, 0x32, 0x3C, 0x0A, 0x14, 0x1E, 0x28, 0x32, 0x3C]

/-- The stream of P1. -/
def streamP1 : List Byte := [0x02, 0x01, 0x61, 0x10, 0x00, 0x1B]

/-! ### WellFormed: what it refuses -/

theorem test_wf_literal_255 : (Instr.literal (List.replicate 255 0)).wf = true := by decide +kernel

theorem test_wf_literal_256 : (Instr.literal (List.replicate 256 0)).wf = false := by decide +kernel

theorem test_wf_filterRow_width_0 : (Instr.filterRow 0 1).wf = false := by decide

theorem test_canonical_refuses :
    (Instr.literal []).canonical = false ∧ (Instr.literal (List.replicate 256 0)).canonical = false ∧
      (Instr.copyShort 0 3).canonical = false ∧ (Instr.copyLong 0 1 0).canonical = false ∧
      (Instr.copyLong 1 0 7).canonical = false ∧ (Instr.filterRow 0 0).canonical = false := by decide +kernel

/-! ### Decoding: words written out from 30_encoding and 95_test_vectors section 2.5 -/

/-- R91: tags L, C, L, C, L, C, L, C give `AA`. -/
theorem test_decode_ctrl : decode Config.defaultParams .control [0xAA] = .ok (.ctrl 0xAA, []) := rfl

/-- R92: `03 61 62 63`. -/
theorem test_decode_literal :
    decode Config.defaultParams .literalBody [0x03, 0x61, 0x62, 0x63, 0x02] = .ok (.literal [0x61, 0x62, 0x63], [0x02]) :=
  rfl

/-- Section 2.5: offset 4095, length 11, `FF FF`: `1111 1111 1111 1 111`. -/
theorem test_decode_copyShort : decode Config.defaultParams .copyBody [0xFF, 0xFF] = .ok (.copyShort 4095 7, []) := rfl

/-- Section 2.5: offset 4095, length 2051, `F7 FF FF`: `1111 1111 1111 0 111`, then `FF`. -/
theorem test_decode_copyLong :
    decode Config.defaultParams .copyBody [0xF7, 0xFF, 0xFF] = .ok (.copyLong 4095 7 0xFF, []) := rfl

/-- Section 2.5: offset 256, length 260, `01 10 00`. -/
theorem test_encode_copyLong : copyBody 256 260 = [0x01, 0x10, 0x00] := by decide

/-- R102: a byte that is no id. -/
theorem test_decode_no_id : decode Config.defaultParams .predictorId [0x03] = .error (.notPredictorId 0x03) := rfl

/-- R102: the default ids. -/
theorem test_decode_pred :
    decode Config.defaultParams .predictorId [0x01] = .ok (.predA, []) ∧
      decode Config.defaultParams .predictorId [0x02] = .ok (.predB, []) ∧
      decode Config.defaultParams .predictorId [0x04] = .ok (.predC, []) := ⟨rfl, rfl, rfl⟩

/-! ### One step each -/

/-- R180's example: `ctrl = 2`, `IN[0] = 02`: `ctrl` becomes `0x102`. -/
theorem test_step_ctrl :
    ends (step (letMove .dec (decAt streamP1 [] 32 .loop 2))) (fun t => decide (t.dec.ctrl = 0x102 ∧ t.dec.ip = 1)) =
      true := by decide +kernel

/-- R182's example: `03 61 62 63` at `dst = 0`, `L = 3`. -/
theorem test_step_literal :
    ends (step (letMove .dec (decAt [0x03, 0x61, 0x62, 0x63] [] 3 .body 0x102)))
        (fun t => decide (t.dec.out = Memory.ofBytes [0x61, 0x62, 0x63] ∧ t.dec.dst = 3 ∧ t.dec.ip = 4)) =
      true := by decide +kernel

/-- X5a: a literal of three bytes with two left in the output: `DEC_LITERAL_DEST_RANGE`. -/
theorem test_literal_dest : fails (exec .decompress (decWith [0x00, 0x03, 0x61, 0x62, 0x63] 2)) .dec 4 = true := by
  decide +kernel

/-- R183's example: `2C 00` at `dst = 2` with `61 62` produced, eight bytes overlapping. -/
theorem test_step_copyShort :
    ends (step (letMove .dec (decAt [0x2C, 0x00] [0x61, 0x62] 10 .loop 0x102)))
        (fun t =>
          decide
            (t.dec.out = Memory.ofBytes [0x61, 0x62, 0x61, 0x62, 0x61, 0x62, 0x61, 0x62, 0x61, 0x62] ∧ t.dec.dst = 10 ∧
              t.dec.ctrl = 0x81)) =
      true := by decide +kernel

/-- X20: both ranges are bad at once; the source range is checked first. -/
theorem test_copy_source_first : fails (exec .decompress (decWith [0x01, 0x38, 0x00] 2)) .dec 2 = true := by decide +kernel

/-- R184's example: `10 00 1B` at `dst = 1` with `61` produced. -/
theorem test_step_copyLong :
    ends (step (letMove .dec (decAt [0x10, 0x00, 0x1B] [0x61] 32 .loop 0x102)))
        (fun t => decide (t.dec.out = Memory.ofBytes (List.replicate 32 0x61) ∧ t.dec.count = 27)) =
      true := by decide +kernel

/-- X4: the long copy passes the end of the output: `DEC_COPY_DEST_RANGE`. -/
theorem test_copyLong_dest : fails (exec .decompress (decWith streamP1 31)) .dec 3 = true := by decide +kernel

/-- F-b: the wraps of predictor A, cost 381. -/
theorem test_predA :
    ends (exec .predA (fltAt 2 1 [0x00, 0x00, 0x00, 0x80, 0x81, 0x7F] 0 (.predictor .a)))
        (fun t =>
          decide (t.flt.res = [0x00, 0x00, 0x00, 0x80, 0x7F, 0x81] ∧ t.flt.bestCost = 381 ∧ t.flt.best = .a)) =
      true := by decide +kernel

/-- F-c: predictor B, cost 376 with its first three bytes counted. -/
theorem test_predB :
    ends
        (exec .predB
          (fltAt 2 2 [0x00, 0x00, 0x00, 0x80, 0x81, 0x7F, 0xFF, 0x01, 0x02, 0x03, 0x04, 0x05] 1 (.predictor .b)))
        (fun t => decide (t.flt.res = [0x01, 0xFF, 0xFE, 0x7D, 0x7D, 0x7A] ∧ t.flt.bestCost = 376 ∧ t.flt.best = .b)) =
      true := by decide +kernel

/-- F-c: predictor C, the 9-bit sum and the rounding down, cost 188. -/
theorem test_predC :
    ends
        (exec .predC
          (fltAt 2 2 [0x00, 0x00, 0x00, 0x80, 0x81, 0x7F, 0xFF, 0x01, 0x02, 0x03, 0x04, 0x05] 1 (.predictor .c)))
        (fun t => decide (t.flt.res = [0xFF, 0x01, 0x02, 0x44, 0xC3, 0xC5] ∧ t.flt.bestCost = 188 ∧ t.flt.best = .c)) =
      true := by decide +kernel

/-- Section 2.1: the edges of `mag`. -/
theorem test_mag : [mag 0x00, mag 0x7F, mag 0x80, mag 0x81, mag 0xFF] = [0, 127, 127, 127, 1] := by decide

/-- R129's example: row 1 of S4 is predictor B's. -/
theorem test_filterRow :
    ends (exec (.filterRow 2 1) (fltWith 2 2 imageS4))
        (fun t => decide (t.flt.id = 2 ∧ t.flt.res = [0x00, 0x00, 0x00, 0x00, 0x00, 0x00])) =
      true := by decide +kernel

/-- F-g: B and C tie below A, B wins. -/
theorem test_filterRow_tie :
    ends
        (exec (.filterRow 2 1)
          (fltWith 2 2 [0xED, 0x53, 0xFA, 0x80, 0xB8, 0x23, 0xB8, 0x6D, 0xBB, 0x38, 0xF5, 0xFF]))
        (fun t => decide (t.flt.id = 2 ∧ t.flt.res = [0x35, 0xE6, 0x3F, 0x48, 0xC3, 0x24])) =
      true := by decide +kernel

/-- F3: an image that selects C. -/
theorem test_filterImage_F3 :
    gives
        (exec .filterImage
          (fltWith 3 2
            [0x00, 0x00, 0x00, 0x64, 0x64, 0x64, 0xC8, 0xC8, 0xC8, 0x32, 0x32, 0x32, 0x4B, 0x4B, 0x4B, 0x89, 0x89, 0x89]))
        .flt
        [0x00, 0x00, 0x18, 0x00, 0x03, 0x00, 0x02, 0x00, 0x01, 0x04, 0x00, 0x00, 0x00, 0x9C, 0x9C, 0x9C, 0x9C, 0x9C, 0x9C,
          0x32, 0x32, 0x32, 0x00, 0x00, 0x00, 0x00, 0x00, 0x00] =
      true := by decide +kernel

/-- R131: `out_len = 8 + H + H × stride` for the largest image, 8 + 65535 + 65535 * 196605. -/
theorem test_filterImage_largest :
    ends
        (step
          (letMove .flt
            { State.reset with flt := { Flt.reset with st := statusStarted 0, w := 65535, h := 65535, row := 65535 } }))
        (fun t => decide (t.flt.st.done = true ∧ t.flt.st.outLen = 12884574218)) =
      true := by decide +kernel

/-- Section 2.4: the sub-header of a 300 by 513 image. -/
theorem test_subHeader :
    subHeader Config.defaultParams 300 513 = [0x00, 0x00, 0x18, 0x00, 0x2C, 0x01, 0x01, 0x02] := by decide

/-- Section 2.6: "abcdXabcdYabcdZ" at 10, the nearest of two equal candidates. -/
theorem test_match_nearest :
    matchAt [0x61, 0x62, 0x63, 0x64, 0x58, 0x61, 0x62, 0x63, 0x64, 0x59, 0x61, 0x62, 0x63, 0x64, 0x5A] 10 =
      { len := 4, off := 5 } := by decide +kernel

/-- V13: exactly eight blocks, one control byte. -/
theorem test_compress_V13 :
    gives
        (exec .compress
          (encWith
            [0x61, 0x62, 0x63, 0x64, 0x58, 0x61, 0x62, 0x63, 0x64, 0x59, 0x61, 0x62, 0x63, 0x64, 0x5A, 0x61, 0x62, 0x63, 0x64,
              0x57, 0x61, 0x62, 0x63, 0x64]))
        .enc
        [0xAA, 0x05, 0x61, 0x62, 0x63, 0x64, 0x58, 0x58, 0x00, 0x01, 0x59, 0x58, 0x00, 0x01, 0x5A, 0x58, 0x00, 0x01, 0x57,
          0x58, 0x00] =
      true := by decide +kernel

/-- P3's first move: `DECIDE` on "abcdXabcd" writes `run`, `best_len`, `best_off` and `src` (R150, R152, R153). -/
theorem test_step_decide :
    ends (step (encAt [0x61, 0x62, 0x63, 0x64, 0x58, 0x61, 0x62, 0x63, 0x64] 0 0 0 []))
        (fun t =>
          decide
            (t.enc.run = 5 ∧ t.enc.src = 5 ∧ t.enc.bestLen = 4 ∧ t.enc.bestOff = 5 ∧
              t.enc.q = [0x05, 0x61, 0x62, 0x63, 0x64, 0x58])) =
      true := by decide +kernel

/-- P1. -/
theorem test_decompress_P1 : gives (exec .decompress (decWith streamP1 32)) .dec (List.replicate 32 0x61) = true := by
  decide +kernel

/-- X8: a literal of count 0, then one of count 1. -/
theorem test_decompress_X8 : gives (exec .decompress (decWith [0x00, 0x00, 0x01, 0x61] 1)) .dec [0x61] = true := by
  decide +kernel

/-- The host's first step after reset on a copy word runs the copy, which faults: nothing has been produced (R212). -/
theorem test_withFetchWord :
    ends (step (State.reset.withFetchWord 16 0x0048)) (fun t => decide (t.dec.st.faultCode = 2)) = true := by decide +kernel

/-! ### Witnesses: a concrete state and operands that meet each statement's hypotheses -/

theorem wit_DecodeEncodedInstruction :
    Config.defaultParams.Distinct ∧ (Instr.copyLong 4095 7 0xFF).wf = true ∧
      (Instr.copyLong 4095 7 0xFF).slot = some .copyBody := by decide

theorem wit_EncodeDecodedBytes :
    decode Config.defaultParams .copyBody [0x48, 0x00, 0x05] = .ok (.copyShort 4 0, [0x05]) := rfl

/-- The words `FFFF` (short form) and `0007` (long form). -/
theorem wit_CopyWordOperands :
    ((0xFF : Byte).toNat + 256 * (0xFF : Byte).toNat) / 8 % 2 = 1 ∧
      ((0x07 : Byte).toNat + 256 * (0x00 : Byte).toNat) / 8 % 2 = 0 := by decide

theorem wit_CopyBodyReadBack : (4 ≤ 4 ∧ 4 ≤ 2051 ∧ 1 ≤ 1 ∧ 1 ≤ 4095) ∧ 4 ≤ 2051 ∧ 2051 ≤ 2051 ∧ 1 ≤ 4095 ∧ 4095 ≤ 4095 := by
  decide

/-- A control byte due. -/
theorem wit_StepRunsDecodedBlock_control :
    let s := decAt streamP1 [] 32 .loop 2
    s.dec.st.busy = true ∧ (s.host = [] ∧ s.flt.st.busy = false ∧ s.enc.st.busy = false) ∧ s.dec.phase = .loop ∧
      s.dec.dst < s.dec.l ∧ ctrlShift s.dec.ctrl = 1 ∧
      decode s.params .control (s.dec.inp.stream (s.dec.m - s.dec.ip) s.dec.ip) =
        .ok (.ctrl 0x02, [0x01, 0x61, 0x10, 0x00, 0x1B]) :=
  ⟨rfl, ⟨rfl, rfl, rfl⟩, rfl, by decide, rfl, rfl⟩

/-- A body after a shift, the host leaving the move to `DEC`. -/
theorem wit_StepRunsDecodedBlock_shifted :
    let s := letMove .dec (decAt [0x10, 0x00, 0x1B] [0x61] 32 .loop 0x102)
    s.dec.st.busy = true ∧ s.host = .move .dec :: [] ∧ s.dec.phase = .loop ∧ s.dec.dst < s.dec.l ∧
      ctrlShift s.dec.ctrl = 0x81 ∧
      decode s.params (bodySlot (ctrlTag (ctrlShift s.dec.ctrl))) (s.dec.inp.stream (s.dec.m - s.dec.ip) s.dec.ip) =
        .ok (.copyLong 1 0 0x1B, []) :=
  ⟨rfl, rfl, rfl, by decide, rfl, rfl⟩

/-- A body right after its control byte. -/
theorem wit_StepRunsDecodedBlock_body :
    let s := letMove .dec (decAt [0x01, 0x61] [] 32 .body 0x102)
    s.dec.st.busy = true ∧ s.host = .move .dec :: [] ∧ s.dec.phase = .body ∧
      decode s.params (bodySlot (ctrlTag s.dec.ctrl)) (s.dec.inp.stream (s.dec.m - s.dec.ip) s.dec.ip) =
        .ok (.literal [0x61], []) :=
  ⟨rfl, rfl, rfl, rfl⟩

theorem wit_StepRunsPredictorOrCommand :
    (let s := fltAt 2 2 imageS4 1 (.predictor .a)
     s.flt.st.busy = true ∧ s.flt.phase = .predictor .a ∧ s.flt.row < s.flt.h.toNat ∧ s.host = []) ∧
      (let s := letMove .flt (fltAt 2 2 imageS4 1 (.predictor .c))
       s.flt.st.busy = true ∧ s.flt.phase = .predictor .c ∧ s.host = .move .flt :: []) ∧
      ({ State.reset with host := [.invoke .compress] } : State).host = .invoke .compress :: [] := by decide

theorem wit_IdleMachineWaits :
    State.reset.host = [] ∧ State.reset.flt.st.busy = false ∧ State.reset.enc.st.busy = false ∧
      State.reset.dec.st.busy = false := by decide

theorem wit_ControlByteReloadsTags :
    (decAt streamP1 [] 32 .loop 2).dec.ip < (decAt streamP1 [] 32 .loop 2).dec.m := by decide

theorem wit_ControlByteGivesEightTags : 0 ≤ 8 ∧ 0 < 8 ∧ 8 ≤ 8 := by decide

/-- A literal that ends exactly at `L`, and one of no bytes. -/
theorem wit_LiteralExecutes :
    (let s := decAt [0x03, 0x61, 0x62, 0x63] [] 3 .body 0x102
     s.dec.ip + 1 + 3 ≤ s.dec.m ∧ s.dec.dst + 3 ≤ s.dec.l ∧ s.dec.dst + 3 ≤ s.dec.out.size) ∧
      (let s := decAt [0x00] [0x61] 1 .body 0x102
       s.dec.ip + 1 + 0 ≤ s.dec.m ∧ s.dec.dst + 0 ≤ s.dec.l ∧ s.dec.dst + 0 ≤ s.dec.out.size) := by decide

/-- The copy of X13: offset 2, length 8, ending exactly at `L`. -/
theorem wit_CopyShortExecutes :
    let s := decAt [0x2C, 0x00] [0x61, 0x62] 10 .body 0x81
    s.dec.ip + 2 ≤ s.dec.m ∧ 1 ≤ (2 : BitVec 12).toNat ∧ (2 : BitVec 12).toNat ≤ s.dec.dst ∧
      s.dec.dst + ((4 : BitVec 3).toNat + 4) ≤ s.dec.l ∧ s.dec.dst + ((4 : BitVec 3).toNat + 4) ≤ s.dec.out.size ∧
      ∀ a, a < s.dec.dst → s.dec.dst - (2 : BitVec 12).toNat ≤ a → s.dec.out.holds a = true := by decide +kernel

/-- The copy of P1, and the non-canonical one of X7. -/
theorem wit_CopyLongExecutes :
    (let s := decAt [0x10, 0x00, 0x1B] [0x61] 32 .body 0x81
     s.dec.ip + 3 ≤ s.dec.m ∧ 1 ≤ (1 : BitVec 12).toNat ∧ (1 : BitVec 12).toNat ≤ s.dec.dst ∧
       s.dec.dst + ((0 : BitVec 3).toNat * 256 + (0x1B : Byte).toNat + 4) ≤ s.dec.l ∧
       s.dec.dst + ((0 : BitVec 3).toNat * 256 + (0x1B : Byte).toNat + 4) ≤ s.dec.out.size ∧
       ∀ a, a < s.dec.dst → s.dec.dst - (1 : BitVec 12).toNat ≤ a → s.dec.out.holds a = true) ∧
      (let s := decAt [0x10, 0x00, 0x03] [0x61] 8 .body 0x81
       s.dec.ip + 3 ≤ s.dec.m ∧ s.dec.dst + ((0 : BitVec 3).toNat * 256 + (3 : Byte).toNat + 4) ≤ s.dec.l) := by
  decide +kernel

/-- X2, X11, X12 and X16 (input, one for each block), X6 and X17 (source), X4 (destination), X5a (literal). -/
theorem wit_BlockFaultsInOrder :
    (let s := decAt [0x10] [0x61] 5 .body 0x81
     let i := Instr.copyShort 1 0
     i.slot = some .copyBody ∧ s.dec.m < s.dec.ip + i.size) ∧
      (let s := decAt [] [] 1 .loop 2
       let i := Instr.ctrl 0
       i.slot = some .control ∧ s.dec.m < s.dec.ip + i.size) ∧
      (let s := decAt [0x10, 0x00] [0x61] 32 .body 0x81
       let i := Instr.copyLong 1 0 0x1B
       i.slot = some .copyBody ∧ s.dec.m < s.dec.ip + i.size) ∧
      (let s := decAt [0x05, 0x61, 0x62] [] 5 .body 0x100
       let i := Instr.literal [0x61, 0x62, 0, 0, 0]
       i.slot = some .literalBody ∧ s.dec.m < s.dec.ip + i.size) ∧
      (let s := decAt [0x08, 0x00] [0x61] 5 .body 0x81
       let i := Instr.copyShort 0 0
       copyOperands i = some (0, 4) ∧ s.dec.ip + i.size ≤ s.dec.m) ∧
      (let s := decAt [0x38, 0x00] [0x61, 0x62] 6 .body 0x81
       let i := Instr.copyShort 3 0
       copyOperands i = some (3, 4) ∧ s.dec.ip + i.size ≤ s.dec.m ∧ s.dec.dst < 3) ∧
      (let s := decAt [0x10, 0x00, 0x1B] [0x61] 31 .body 0x81
       let i := Instr.copyLong 1 0 0x1B
       copyOperands i = some (1, 31) ∧ s.dec.ip + i.size ≤ s.dec.m ∧ 1 ≤ 1 ∧ 1 ≤ s.dec.dst ∧ s.dec.l < s.dec.dst + 31) ∧
      (let s := decAt [0x03, 0x61, 0x62, 0x63] [] 2 .body 0x100
       s.dec.ip + (1 + 3) ≤ s.dec.m ∧ s.dec.l < s.dec.dst + 3) := by decide

/-- X2: a control byte due and none there, the host leaving the move to `DEC`. -/
theorem wit_MissingInputFaults_control :
    let s := letMove .dec (decAt [] [] 1 .loop 2)
    s.dec.st.busy = true ∧ TurnOf .dec s { s with host := [] } ∧ s.dec.inp.Filled s.dec.m ∧ s.dec.ip ≤ s.dec.m ∧
      s.dec.phase = .loop ∧ s.dec.dst < s.dec.l ∧ ctrlShift s.dec.ctrl = 1 ∧
      decode s.params .control (s.dec.inp.stream (s.dec.m - s.dec.ip) s.dec.ip) = .error .truncated :=
  ⟨rfl, .inl ⟨rfl, rfl⟩, by decide, by decide, rfl, by decide, rfl, rfl⟩

/-- X11: one byte of the copy word there, at the loop test, `DEC` running free. -/
theorem wit_MissingInputFaults_shifted :
    let s := decAt [0x10] [0x61] 5 .loop 0x102
    s.dec.st.busy = true ∧ TurnOf .dec s s ∧ s.dec.inp.Filled s.dec.m ∧ s.dec.ip ≤ s.dec.m ∧ s.dec.phase = .loop ∧
      s.dec.dst < s.dec.l ∧ ctrlShift s.dec.ctrl = 0x81 ∧
      decode s.params (bodySlot (ctrlTag (ctrlShift s.dec.ctrl))) (s.dec.inp.stream (s.dec.m - s.dec.ip) s.dec.ip) =
        .error .truncated :=
  ⟨rfl, .inr ⟨rfl, rfl, fun _ => rfl, fun _ => rfl⟩, by decide, by decide, rfl, by decide, rfl, rfl⟩

/-- X12: the long form's third byte missing, right after the control byte, `DEC` running free. -/
theorem wit_MissingInputFaults_body :
    let s := decAt [0x10, 0x00] [0x61] 32 .body 0x81
    s.dec.st.busy = true ∧ TurnOf .dec s s ∧ s.dec.inp.Filled s.dec.m ∧ s.dec.ip ≤ s.dec.m ∧ s.dec.phase = .body ∧
      decode s.params (bodySlot (ctrlTag s.dec.ctrl)) (s.dec.inp.stream (s.dec.m - s.dec.ip) s.dec.ip) =
        .error .truncated :=
  ⟨rfl, .inr ⟨rfl, rfl, fun _ => rfl, fun _ => rfl⟩, by decide, by decide, rfl, rfl⟩

/-- X9: the output complete, two bytes left; the host leaving the move to `DEC`, and `DEC` running free. -/
theorem wit_LoopEndsAtOutputLength :
    let s := decAt [0xFF, 0xFF] [0x61, 0x62, 0x63] 3 .loop 0x100
    s.dec.st.busy = true ∧ s.dec.phase = .loop ∧ s.dec.dst = s.dec.l ∧ TurnOf .dec s s ∧
      TurnOf .dec (letMove .dec s) s :=
  ⟨rfl, rfl, rfl, .inr ⟨rfl, rfl, fun _ => rfl, fun _ => rfl⟩, .inl ⟨rfl, rfl⟩⟩

/-- P1 (success) and P6 (fault). -/
theorem wit_DecompressMatchesPureFunction :
    (let s := decWith streamP1 32
     s.dec.st.busy = false ∧ s.dec.m ≤ Config.maxLen ∧ s.dec.l ≤ Config.maxLen ∧ s.dec.inp.size = s.dec.m ∧
       s.dec.inp.readRange s.dec.m 0 = .ok streamP1) ∧
      pureDecompress streamP1 32 = .ok (List.replicate 32 0x61) ∧
      pureDecompress [0x02, 0x02, 0x61, 0x62, 0x38, 0x00] 6 = .error .decCopySourceRange :=
  ⟨⟨rfl, by decide, by decide, rfl, rfl⟩, rfl, rfl⟩

theorem wit_DecompressWritesWholeOutput : pureDecompress [0x00, 0x03, 0x61, 0x62, 0x63] 3 = .ok [0x61, 0x62, 0x63] := rfl

theorem wit_TrailingBytesIgnored : pureDecompress [0x00, 0x03, 0x61, 0x62, 0x63] 3 = .ok [0x61, 0x62, 0x63] := rfl

theorem wit_DecompressorNeverStops :
    let s := decAt [0x10, 0x00, 0x1B] [0x61] 32 .loop 0x102
    s.dec.st.busy = true ∧ decInv s.dec ∧ s.dec.inp.Filled s.dec.m :=
  ⟨rfl, by decide +kernel, by decide⟩

/-- Rows of one pixel and of two. -/
theorem wit_ResidualRowsFollowFormulas :
    (3 ≤ ([0x07, 0x08, 0x09] : List Byte).length ∧ 2 < ([0x07, 0x08, 0x09] : List Byte).length) ∧
      (3 ≤ (imageS4.take 6).length ∧ (imageS4.drop 6).length = (imageS4.take 6).length ∧ 5 < (imageS4.take 6).length) := by
  decide

theorem wit_PredictorAExecutes :
    let s := fltAt 2 2 imageS4 1 (.predictor .a)
    s.flt.pix.readRange (s.flt.w.toNat * 3) (s.flt.row * (s.flt.w.toNat * 3)) =
      .ok [0x0A, 0x14, 0x1E, 0x28, 0x32, 0x3C] := rfl

theorem wit_PredictorBExecutes :
    let s := fltAt 2 2 imageS4 1 (.predictor .b)
    0 < s.flt.row ∧
      s.flt.pix.readRange (s.flt.w.toNat * 3) (s.flt.row * (s.flt.w.toNat * 3)) =
        .ok [0x0A, 0x14, 0x1E, 0x28, 0x32, 0x3C] ∧
      s.flt.pix.readRange (s.flt.w.toNat * 3) ((s.flt.row - 1) * (s.flt.w.toNat * 3)) =
        .ok [0x0A, 0x14, 0x1E, 0x28, 0x32, 0x3C] :=
  ⟨by decide, rfl, rfl⟩

theorem wit_PredictorCExecutes :
    let s := fltAt 1 2 [0x07, 0x08, 0x09, 0x01, 0x02, 0x03] 1 (.predictor .c)
    0 < s.flt.row ∧
      s.flt.pix.readRange (s.flt.w.toNat * 3) (s.flt.row * (s.flt.w.toNat * 3)) = .ok [0x01, 0x02, 0x03] ∧
      s.flt.pix.readRange (s.flt.w.toNat * 3) ((s.flt.row - 1) * (s.flt.w.toNat * 3)) = .ok [0x07, 0x08, 0x09] :=
  ⟨by decide, rfl, rfl⟩

theorem wit_PredictorsNeedRowAbove : State.reset.flt.row = 0 := rfl

/-- Row 0 and row 1 of S4's image. -/
theorem wit_FilterRowSelects :
    let s := fltWith 2 2 imageS4
    s.flt.st.busy = false ∧ (2 : BitVec 16) ≠ 0 ∧
      s.flt.pix.readRange ((2 : BitVec 16).toNat * 3) ((0 : BitVec 16).toNat * ((2 : BitVec 16).toNat * 3)) =
        .ok [0x0A, 0x14, 0x1E, 0x28, 0x32, 0x3C] ∧
      (1 : BitVec 16) ≠ 0 ∧
      s.flt.pix.readRange ((2 : BitVec 16).toNat * 3) ((1 : BitVec 16).toNat * ((2 : BitVec 16).toNat * 3)) =
        .ok [0x0A, 0x14, 0x1E, 0x28, 0x32, 0x3C] ∧
      s.flt.pix.readRange ((2 : BitVec 16).toNat * 3) (((1 : BitVec 16).toNat - 1) * ((2 : BitVec 16).toNat * 3)) =
        .ok [0x0A, 0x14, 0x1E, 0x28, 0x32, 0x3C] :=
  ⟨rfl, by decide, rfl, by decide, rfl, rfl⟩

/-- F5, row 1. -/
theorem wit_OnePixelRowsUseA :
    ends (exec (.filterRow 1 1) (fltWith 1 3 [0x07, 0x08, 0x09, 0x07, 0x08, 0x09, 0x01, 0x02, 0x03]))
      (fun t => decide (t.flt.id = 1)) = true := by decide +kernel

theorem wit_FirstRowUsesA :
    ends (exec .filterImage (fltWith 1 1 [0x07, 0x08, 0x09])) (fun _ => true) = true ∧
      (fltWith 1 1 [0x07, 0x08, 0x09]).flt.pix.readRange ((1 : BitVec 16).toNat * 3) 0 = .ok [0x07, 0x08, 0x09] :=
  ⟨by decide +kernel, rfl⟩

theorem wit_FilterImageMatchesPureFunction :
    let s := fltWith 2 2 imageS4
    s.flt.st.busy = false ∧ s.flt.w ≠ 0 ∧ s.flt.h ≠ 0 ∧ s.flt.pix.size = s.flt.h.toNat * (s.flt.w.toNat * 3) ∧
      s.flt.pix.readRange s.flt.pix.size 0 = .ok imageS4 :=
  ⟨rfl, by decide, by decide, rfl, rfl⟩

theorem wit_FilteredStreamLayout :
    imageS4.length = (2 : BitVec 16).toNat * ((2 : BitVec 16).toNat * 3) ∧ 0 < (2 : BitVec 16).toNat := by decide

/-- Recording row 1 of S4, the host leaving the move to `FLT`, and the end after row 1, `FLT` running free. -/
theorem wit_FilterRecordsAndEnds :
    (let s := letMove .flt (fltAt 2 2 imageS4 1 .record)
     s.flt.st.busy = true ∧ TurnOf .flt s { s with host := [] } ∧ s.flt.phase = .record ∧ s.flt.row < s.flt.h.toNat ∧
       8 + s.flt.h.toNat + s.flt.row * (s.flt.w.toNat * 3) + s.flt.res.length ≤ s.flt.fs.size) ∧
      (let s := fltAt 2 2 imageS4 2 (.predictor .a)
       s.flt.st.busy = true ∧ TurnOf .flt s s ∧ s.flt.phase = .predictor .a ∧ s.flt.h.toNat ≤ s.flt.row) :=
  ⟨⟨rfl, .inl ⟨rfl, rfl⟩, rfl, by decide, by decide⟩, rfl, .inr ⟨rfl, rfl, fun h => absurd rfl h, by decide⟩, rfl, by decide⟩

theorem wit_FilterNeverStops :
    let s := fltAt 2 2 imageS4 1 .record
    s.flt.st.busy = true ∧ fltInv s.flt ∧ s.flt.pix.Filled s.flt.pix.size := by decide +kernel

theorem wit_MatchIsNearestLongest : 4 < ([0x61, 0x62, 0x63, 0x64, 0x61, 0x62, 0x63, 0x64] : List Byte).length := by decide

theorem wit_LiteralRunStops : 0 < ([0x7A] : List Byte).length := by decide

/-- The second push of P3, the eighth, and the final flush of P3. -/
theorem wit_PushQueuesFlushWrites :
    (let e := { Enc.reset with nq := 1, acc := 0x00, q := [0x01, 0x61] }
     e.nq < 8 ∧ e.acc.toNat < 2 ^ e.nq ∧ e.nq ≠ 7) ∧
      (let e := { Enc.reset with nq := 7, acc := 0x2A }
       e.nq < 8 ∧ e.acc.toNat < 2 ^ e.nq ∧ e.nq = 7) ∧
      (let e :=
        { Enc.reset with nq := 3, acc := 0x02, q := [0x01, 0x56, 0x58, 0x00, 0x01, 0x55], wp := 21, out := Memory.alloc 28 }
       e.wp + (1 + e.q.length) ≤ e.out.size) := by decide

/-- V1: at the start a literal (no match at 0), `ENC` running free; at 4 the copy, the host leaving the move to `ENC`; at the end
the flush of two blocks, and after a whole group nothing to flush. -/
theorem wit_CompressorMoves :
    (let s := encAt inputV1 0 0 0 []
     s.enc.st.busy = true ∧ TurnOf .enc s s ∧ s.enc.src < s.enc.n ∧ s.enc.inp.readRange s.enc.n 0 = .ok inputV1 ∧
       (matchAt inputV1 s.enc.src).len < 4) ∧
      (let s := letMove .enc (encAt inputV1 4 0 1 [0x04, 0x61, 0x62, 0x63, 0x64])
       s.enc.st.busy = true ∧ TurnOf .enc s { s with host := [] } ∧ s.enc.src < s.enc.n ∧
         s.enc.inp.readRange s.enc.n 0 = .ok inputV1 ∧ 4 ≤ (matchAt inputV1 s.enc.src).len) ∧
      (let s := encAt inputV1 8 0x02 2 [0x04, 0x61, 0x62, 0x63, 0x64, 0x48, 0x00]
       s.enc.st.busy = true ∧ TurnOf .enc s s ∧ s.enc.src = s.enc.n ∧ s.enc.nq ≠ 0 ∧
         s.enc.wp + (1 + s.enc.q.length) ≤ s.enc.out.size) ∧
      (let s := encAt [] 0 0 0 []
       s.enc.st.busy = true ∧ TurnOf .enc s s ∧ s.enc.src = s.enc.n ∧ s.enc.nq = 0) :=
  ⟨⟨rfl, .inr ⟨rfl, rfl, fun _ => rfl, by decide⟩, by decide, rfl, by decide +kernel⟩,
    ⟨rfl, .inl ⟨rfl, rfl⟩, by decide, rfl, by decide +kernel⟩,
    ⟨rfl, .inr ⟨rfl, rfl, fun _ => rfl, by decide⟩, rfl, by decide, by decide⟩,
    rfl, .inr ⟨rfl, rfl, fun _ => rfl, by decide⟩, rfl, rfl⟩

/-- V1 between its two blocks. -/
theorem wit_CompressorNeverStops :
    let s := encAt inputV1 4 0 1 [0x04, 0x61, 0x62, 0x63, 0x64]
    s.enc.st.busy = true ∧ encInv s.enc ∧ s.enc.inp.Filled s.enc.n :=
  ⟨rfl, ⟨by decide, by decide, by decide, by decide, fun _ => by decide +kernel⟩, by decide⟩

theorem wit_CompressMatchesPureFunction :
    let s := encWith [0x61, 0x62, 0x63]
    s.enc.st.busy = false ∧ s.enc.n ≤ Config.maxLen ∧ s.enc.inp.size = s.enc.n ∧
      s.enc.inp.readRange s.enc.n 0 = .ok [0x61, 0x62, 0x63] :=
  ⟨rfl, by decide, rfl, rfl⟩

/-- V1 has a copy block. -/
theorem wit_BlocksAreCanonical :
    .copy 4 4 ∈ parse [0x61, 0x62, 0x63, 0x64, 0x61, 0x62, 0x63, 0x64] := by decide +kernel

theorem wit_EmptyInputEmptyOutput :
    let s := encWith []
    s.enc.st.busy = false ∧ s.enc.n = 0 ∧ s.enc.inp.size = 0 := by decide

theorem wit_CompressNeverFaults : ends (exec .compress (encWith [0x7A])) (fun _ => true) = true := by decide +kernel

theorem wit_BlockConstructorsValidate :
    (([] : List Byte).length < 1 ∧ 255 < (List.replicate 256 (0 : Byte)).length ∧
        1 ≤ ([0x61] : List Byte).length ∧ (List.replicate 255 (0 : Byte)).length ≤ 255) ∧
      3 < 4 ∧ 2051 < 2052 ∧ 0 < 1 ∧ 4095 < 4096 ∧ 4 ≤ 2051 ∧ 1 ≤ 4095 := by decide +kernel

theorem wit_RoundTripOfMachine :
    let s := encWith [0x61, 0x62, 0x63]
    s.enc.st.busy = false ∧ s.dec.st.busy = false ∧ s.enc.n ≤ Config.maxLen ∧ s.enc.inp.size = s.enc.n ∧
      s.enc.inp.readRange s.enc.n 0 = .ok [0x61, 0x62, 0x63] ∧
      ends (exec .compress s) (fun t => decide (t.enc.st.outLen ≤ Config.maxLen)) = true :=
  ⟨rfl, rfl, by decide, rfl, rfl, by decide +kernel⟩

theorem wit_ResetClearsStatus :
    let s := { decAt streamP1 [] 32 .loop 2 with host := [.reset .dec] }
    s.host = .reset .dec :: [] ∧ s.dec.st.busy = true := by decide

theorem wit_StartInitialises :
    (let s := decWith streamP1 32
     s.dec.st.busy = false ∧ s.dec.m ≤ Config.maxLen ∧ s.dec.l ≤ Config.maxLen ∧ s.dec.inp.size = s.dec.m) ∧
      (let s := encWith [0x7A]
       s.enc.st.busy = false ∧ s.enc.n ≤ Config.maxLen ∧ s.enc.inp.size = s.enc.n) ∧
      (let s := fltWith 2 2 imageS4
       s.flt.st.busy = false ∧ s.flt.w ≠ 0 ∧ s.flt.h ≠ 0 ∧
         s.flt.pix.size = s.flt.h.toNat * (s.flt.w.toNat * 3)) := by decide

theorem wit_ViolatedContractsRefused_busy :
    (fltAt 2 2 imageS4 0 (.predictor .a)).flt.st.busy = true ∧
      ({ State.reset with enc := { Enc.reset with st := statusStarted 0 } } : State).enc.st.busy = true ∧
      (decAt streamP1 [] 32 .loop 2).dec.st.busy = true ∧
      (let s := { decAt streamP1 [] 32 .loop 2 with host := [.fill .dec [0x00]] }
       s.host = .fill .dec [0x00] :: [] ∧ (HostOp.fill .dec [0x00]).writes = true ∧
         (statusOf s (HostOp.fill .dec [0x00]).target).busy = true) := by decide

/-- `FILTER_ROW` of width 0, and an output handed over before a command has ended or while one runs. -/
theorem wit_ViolatedContractsRefused_output :
    State.reset.flt.st.busy = false ∧
      (let s := { State.reset with host := [.handOver .enc .dec] }
       s.host = .handOver .enc .dec :: [] ∧ (statusOf s .enc).done = false) ∧
      (let s := { decAt streamP1 [] 32 .loop 2 with host := [.handOver .dec .enc] }
       s.host = .handOver .dec .enc :: [] ∧ (statusOf s .dec).busy = true) := by decide

theorem wit_ViolatedContractsRefused_require :
    (State.reset.flt.st.busy = false ∧ State.reset.flt.w = 0) ∧
      ((fltWith 2 2 []).flt.w ≠ 0 ∧ (fltWith 2 2 []).flt.pix.size ≠ 2 * (2 * 3)) ∧
      (let e := { Enc.reset with n := 2 ^ 31 }
       e.st.busy = false ∧ Config.maxLen < e.n) ∧
      (let d := { Dec.reset with l := 2 ^ 31 }
       d.st.busy = false ∧ Config.maxLen < d.l) ∧
      (let d := { Dec.reset with m := 1 }
       d.st.busy = false ∧ d.inp.size ≠ d.m) := by decide

theorem wit_StepKeepsInvariant :
    let s := decAt [0x10, 0x00, 0x1B] [0x61] 32 .loop 0x102
    s.Inv ∧ ends (step s) (fun t => decide (t.dec.dst = 32)) = true :=
  ⟨⟨by decide, by decide, by decide, by decide +kernel⟩, by decide +kernel⟩

/-- One instruction of each engine. -/
theorem wit_EnginesShareNothing :
    ends (exec .predA (fltAt 2 2 imageS4 0 (.predictor .a))) (fun _ => true) = true ∧
      ends (exec .compress (encWith [0x7A])) (fun _ => true) = true ∧
      ends (exec (.ctrl 0x02) (decAt streamP1 [] 32 .loop 2)) (fun _ => true) = true := by decide +kernel

theorem wit_InputsFixedWhileBusy :
    (let s := decAt streamP1 [] 32 .loop 2
     ends (step s) (fun _ => true) = true ∧ s.dec.st.busy = true ∧ s.host.head? ≠ some (.reset .dec)) ∧
      (let s := fltAt 2 2 imageS4 0 (.predictor .a)
       ends (step s) (fun _ => true) = true ∧ s.flt.st.busy = true ∧ s.host.head? ≠ some (.reset .flt)) ∧
      (let s := { encWith [0x7A] with host := [.start .enc] }
       ends (step s)
         (fun t => decide (t.enc.st.busy = true ∧ t.host.head? ≠ some (.reset .enc)) && ends (step t) fun _ => true) =
         true) := by decide +kernel

/-- `DEC` with a fault, the host filling its input. -/
theorem wit_StatusStickyUntilRestart :
    let s :=
      { State.reset with
        dec := { Dec.reset with st := statusRaised .decInputExhausted 0 }, host := [.fill .dec [0x00]] }
    ends (step s) (fun t => t.dec.st.fault) = true ∧ (statusOf s .dec).busy = false ∧
      s.host.head? = some (.fill .dec [0x00]) ∧ (HostOp.fill .dec [0x00]).restarts = false := by decide +kernel

theorem wit_CursorsOnlyAdvance :
    ends (engineTurn .dec (decAt streamP1 [] 32 .loop 2)) (fun t => t.dec.st.busy) = true ∧
      ends (engineTurn .enc { encWith [0x7A] with enc := encBegin (encWith [0x7A]).enc }) (fun t => t.enc.st.busy) = true ∧
      ends (engineTurn .flt (fltAt 2 2 imageS4 1 .record)) (fun t => t.flt.st.busy) = true := by decide +kernel

theorem wit_EveryCommandEnds :
    ends (exec .filterImage (fltWith 2 2 imageS4)) (fun _ => true) = true ∧
      ends (exec .compress (encWith [0x7A])) (fun _ => true) = true ∧
      ends (exec .decompress (decWith streamP1 32)) (fun _ => true) = true := by decide +kernel

/-- The second machine has other registers from an earlier command. -/
theorem wit_CommandsForgetThePast :
    (let s := decWith streamP1 32
     let s' := { s with dec := { s.dec with ip := 5, dst := 7, ctrl := 0x1FF } }
     (s'.dec.m = s.dec.m ∧ s'.dec.l = s.dec.l ∧ s'.dec.inp = s.dec.inp ∧ s'.params = s.params) ∧
       ends (exec .decompress s) (fun _ => true) = true ∧ ends (exec .decompress s') (fun _ => true) = true) ∧
      (let s := encWith [0x7A]
       let s' := { s with enc := { s.enc with acc := 0xFF, nq := 5, wp := 9 } }
       (s'.enc.n = s.enc.n ∧ s'.enc.inp = s.enc.inp) ∧ ends (exec .compress s) (fun _ => true) = true ∧
         ends (exec .compress s') (fun _ => true) = true) ∧
      (let s := fltWith 2 2 imageS4
       let s' := { s with flt := { s.flt with row := 3, best := .c } }
       (s'.flt.w = s.flt.w ∧ s'.flt.h = s.flt.h ∧ s'.flt.pix = s.flt.pix ∧ s'.params = s.params) ∧
         ends (exec .filterImage s) (fun _ => true) = true ∧ ends (exec .filterImage s') (fun _ => true) = true) := by
  decide +kernel

/-- `ENC` done with one byte, handed to each engine. -/
theorem wit_HandOverPassesOutput :
    let s :=
      { State.reset with
        enc := { Enc.reset with st := statusDone 1, out := Memory.ofBytes [0x7A] },
        host := [.handOver .enc .dec, .handOver .enc .enc, .handOver .enc .flt] }
    s.host = .handOver .enc .dec :: [.handOver .enc .enc, .handOver .enc .flt] ∧ (statusOf s .enc).busy = false ∧
      (statusOf s .enc).done = true ∧ (statusOf s .dec).busy = false ∧ (statusOf s .flt).busy = false ∧
      outputBytes s .enc = .ok [0x7A] :=
  ⟨rfl, rfl, rfl, rfl, rfl, rfl⟩

end Sys2Proof.Tests
end

section
/-! PROOFS. The state: what the reset input of an engine (R36, R240) and the writing of `start` (R35) do to the machine. -/

namespace Sys2Proof.Machine

open Sys2Proof

/-! ### A pending host action -/

/-- The host's oldest pending action is the next move (log 6). -/
theorem step_of_host {s : State} {op : HostOp} {ops : List HostOp} (h : s.host = op :: ops) :
    step s = hostTurn op { s with host := ops } := by
  simp only [step, nextMove, h]

/-! ### The reset input -/

/-- The engine reset shows the cleared status registers, whatever it was doing (R240). -/
theorem statusOf_hostReset (e : Engine) (s : State) : ∃ free, statusOf (hostReset e s) e = statusReset free := by
  cases e with
  | flt => exact ⟨_, fltReset_st s.flt⟩
  | enc => exact ⟨_, encReset_st s.enc⟩
  | dec => exact ⟨_, decReset_st s.dec⟩

@[simp] theorem hostReset_params (e : Engine) (s : State) : (hostReset e s).params = s.params := by
  cases e <;> rfl

@[simp] theorem hostReset_host (e : Engine) (s : State) : (hostReset e s).host = s.host := by
  cases e <;> rfl

theorem hostReset_flt_of_ne {e : Engine} (h : e ≠ .flt) (s : State) : (hostReset e s).flt = s.flt := by
  cases e with
  | flt => exact absurd rfl h
  | enc => exact hostReset_enc_flt s
  | dec => exact hostReset_dec_flt s

theorem hostReset_enc_of_ne {e : Engine} (h : e ≠ .enc) (s : State) : (hostReset e s).enc = s.enc := by
  cases e with
  | flt => exact hostReset_flt_enc s
  | enc => exact absurd rfl h
  | dec => exact hostReset_dec_enc s

theorem hostReset_dec_of_ne {e : Engine} (h : e ≠ .dec) (s : State) : (hostReset e s).dec = s.dec := by
  cases e with
  | flt => exact hostReset_flt_dec s
  | enc => exact hostReset_enc_dec s
  | dec => exact absurd rfl h

/-- Settles O48: the state after reset is cleared by its definition; the reset input gives one engine `statusReset` and
leaves the rest of the machine alone. -/
theorem resetClearsStatus : Obligations.ResetClearsStatus := by
  refine ⟨fun e => by cases e <;> exact ⟨rfl, rfl, rfl, rfl⟩, fun s e ops h => ?_⟩
  obtain ⟨free, hst⟩ := statusOf_hostReset e { s with host := ops }
  refine ⟨hostReset e { s with host := ops }, step_of_host h, ?_⟩
  rw [hst]
  exact ⟨rfl, rfl, rfl, rfl, hostReset_params .., hostReset_host .., fun hne => hostReset_flt_of_ne hne _,
    fun hne => hostReset_enc_of_ne hne _, fun hne => hostReset_dec_of_ne hne _⟩

/-! ### Writing `start` -/

/-- `ENC.start` with a true `require` begins the command (R158). -/
theorem encStart_eq_begin {e : Enc} (hb : e.st.busy = false) (hn : e.n ≤ Config.maxLen) (hsz : e.inp.size = e.n) :
    encStart e = .next (encBegin e) := by
  simp [encStart, hb, hn, hsz]

/-- `DEC.start` with a true `require` begins the command (R187). -/
theorem decStart_eq_begin {d : Dec} (hb : d.st.busy = false) (hm : d.m ≤ Config.maxLen) (hl : d.l ≤ Config.maxLen)
    (hsz : d.inp.size = d.m) : decStart d = .next (decBegin d) := by
  simp [decStart, hb, hm, hl, hsz]

@[simp] theorem subHeader_length (p : Params) (w h : BitVec 16) :
    (subHeader p w h).length = Config.subheaderLen := rfl

/-- The output space allocated for the FilteredStream has room for the sub-header (R66, R67). -/
theorem subHeader_write_ok (p : Params) (f : Flt) :
    ∃ fs, (fltBegin f).fs.writeBytes (subHeader p f.w f.h) 0 = .ok fs := by
  apply Memory.writeBytes_total
  simp only [fltBegin_fs, Memory.alloc_size, subHeader_length, fltLength]
  omega

/-- `FLT.start` with a true `require` begins the command and writes the sub-header (R131). -/
theorem fltStart_eq_begin {p : Params} {f : Flt} (hb : f.st.busy = false) (hw : f.w ≠ 0) (hh : f.h ≠ 0)
    (hsz : f.pix.size = f.h.toNat * fltStride f) :
    ∃ fs, (fltBegin f).fs.writeBytes (subHeader p f.w f.h) 0 = .ok fs ∧
      fltStart p f = .next { fltBegin f with fs := fs } := by
  obtain ⟨fs, hfs⟩ := subHeader_write_ok p f
  refine ⟨fs, hfs, ?_⟩
  rw [fltStart, if_neg (by simp [hb]), if_pos ⟨hw, hh, hsz⟩, hfs, access_ok]

/-- Settles O49: with a true `require` each `start` answers the engine's per-call initial values (R35), and the machine
changes in that engine alone. -/
theorem startInitialises : Obligations.StartInitialises := by
  refine ⟨fun s hb hm hl hsz => ?dec, fun s hb hn hsz => ?enc, fun s hb hw hh hsz => ?flt⟩
  case dec =>
    have hstart : hostStart .dec s = .next { s with dec := decBegin s.dec } :=
      onDec_eq_next.2 ⟨_, decStart_eq_begin hb hm hl hsz, rfl⟩
    exact ⟨_, hstart, ⟨rfl, rfl, rfl, rfl⟩, rfl, rfl, rfl, rfl, decBegin_ip _, decBegin_dst _, decBegin_ctrl _,
      decBegin_m _, decBegin_l _, decBegin_inp _⟩
  case enc =>
    have hstart : hostStart .enc s = .next { s with enc := encBegin s.enc } :=
      onEnc_eq_next.2 ⟨_, encStart_eq_begin hb hn hsz, rfl⟩
    exact ⟨_, hstart, ⟨rfl, rfl, rfl, rfl⟩, rfl, rfl, rfl, rfl, encBegin_src _, encBegin_acc _, encBegin_nq _,
      encBegin_q _, encBegin_wp _, encBegin_n _, encBegin_inp _⟩
  case flt =>
    obtain ⟨fs, -, hbegin⟩ := fltStart_eq_begin (p := s.params) hb hw hh hsz
    have hstart : hostStart .flt s = .next { s with flt := { fltBegin s.flt with fs := fs } } :=
      onFlt_eq_next.2 ⟨_, hbegin, rfl⟩
    exact ⟨_, hstart, ⟨rfl, rfl, rfl, rfl⟩, rfl, rfl, rfl, rfl, fltBegin_row s.flt, fltBegin_w s.flt,
      fltBegin_h s.flt, fltBegin_pix s.flt⟩

end Sys2Proof.Machine
end

section
/-! PROOFS. The compressor's parse: every block of `parse` keeps the format's ranges and moves on inside the input (R101). -/

namespace Sys2Proof.Machine

open Sys2Proof

/-! ### The match search -/

/-- What R150 allows a match at `p`: its length within the cap and, unless the length is 0, its source inside both the input
before `p` and the window. -/
def Match.InWindow (inp : List Byte) (p : Nat) (m : Match) : Prop :=
  m.len ≤ matchCap inp p ∧ (m.len = 0 ∨ 1 ≤ m.off ∧ m.off ≤ p ∧ m.off ≤ Config.window)

/-- The scan keeps its best match allowed: it looks only at offsets of the window. -/
theorem matchScan_inWindow {inp : List Byte} {p k off : Nat} {best : Match} (hoff : 1 ≤ off)
    (hp : off + k ≤ p + 1) (hw : off + k ≤ Config.window + 1) (hbest : best.InWindow inp p) :
    (matchScan inp p k off best).InWindow inp p := by
  induction k generalizing off best with
  | zero => exact hbest
  | succ k ih =>
    have hcand : Match.InWindow inp p ⟨prefixLen (matchCap inp p) (inp.drop (p - off)) (inp.drop p), off⟩ :=
      ⟨prefixLen_le_cap .., .inr ⟨hoff, show off ≤ p by omega, show off ≤ Config.window by omega⟩⟩
    have hbetter := iteInduction (motive := Match.InWindow inp p) (fun _ => hcand)
      fun _ : ¬best.len < prefixLen (matchCap inp p) (inp.drop (p - off)) (inp.drop p) => hbest
    exact iteInduction (motive := Match.InWindow inp p) (fun _ => hbetter)
      fun _ => ih (Nat.le_succ_of_le hoff) (by omega) (by omega) hbetter

theorem matchAt_inWindow (inp : List Byte) (p : Nat) : (matchAt inp p).InWindow inp p :=
  matchScan_inWindow (Nat.le_refl 1) (by omega) (by omega) ⟨Nat.zero_le _, .inl rfl⟩

/-- A profitable match has the ranges of a copy (R101) and ends inside the input. -/
theorem matchAt_copyRange {inp : List Byte} {p : Nat} (hp : p ≤ inp.length) (h : 4 ≤ (matchAt inp p).len) :
    (matchAt inp p).len ≤ 2051 ∧ 1 ≤ (matchAt inp p).off ∧ (matchAt inp p).off ≤ 4095 ∧ (matchAt inp p).off ≤ p ∧
      p + (matchAt inp p).len ≤ inp.length := by
  obtain ⟨hcap, hzero | ⟨hpos, hback, hwin⟩⟩ := matchAt_inWindow inp p
  · omega
  · obtain ⟨hmax, hroom⟩ := Nat.le_min.1 hcap
    exact ⟨hmax, hpos, hwin, hback, by omega⟩

/-! ### The literal run -/

/-- The loop either ends with the run it has, or takes one more byte of the input and goes on (R153). -/
theorem litRunLoop_cases (inp : List Byte) (p k run : Nat) (last : Match) :
    (∃ m, litRunLoop inp p (k + 1) run last = (run, m)) ∨
      p + run < inp.length ∧ ∃ m, litRunLoop inp p (k + 1) run last = litRunLoop inp p k (run + 1) m := by
  by_cases hlt : p + run < inp.length
  · by_cases hprof : profitable (matchAt inp (p + run)).len = true
    · exact .inl ⟨_, (if_pos hlt).trans (if_pos hprof)⟩
    · exact .inr ⟨hlt, _, (if_pos hlt).trans (if_neg hprof)⟩
  · exact .inl ⟨_, if_neg hlt⟩

/-- The loop adds at most the `k` bytes it has room for and never passes the input's end. -/
theorem litRunLoop_range {inp : List Byte} {p k run : Nat} {last : Match} (h : p + run ≤ inp.length) :
    run ≤ (litRunLoop inp p k run last).1 ∧ (litRunLoop inp p k run last).1 ≤ run + k ∧
      p + (litRunLoop inp p k run last).1 ≤ inp.length := by
  induction k generalizing run last with
  | zero => exact ⟨Nat.le_refl _, Nat.le_refl _, h⟩
  | succ k ih =>
    obtain ⟨m, hm⟩ | ⟨hlt, m, hm⟩ := litRunLoop_cases inp p k run last
    · rw [hm]
      exact ⟨Nat.le_refl _, Nat.le_add_right .., h⟩
    · rw [hm]
      obtain ⟨hlo, hhi, hin⟩ := ih (run := run + 1) (last := m) hlt
      exact ⟨Nat.le_of_succ_le hlo, by omega, hin⟩

/-- A literal run started inside the input has the range of a literal (R101) and ends inside the input. -/
theorem litRun_range {inp : List Byte} {p : Nat} (last : Match) (h : p < inp.length) :
    1 ≤ (litRun inp p last).1 ∧ (litRun inp p last).1 ≤ 255 ∧ p + (litRun inp p last).1 ≤ inp.length :=
  litRunLoop_range (k := 254) h

/-! ### The parse -/

/-- Induction along the parse of R152, packaged once: what holds of no blocks at the input's end, and of a literal run or a
copy in front of the blocks after it, holds of the blocks from every position that has room for enough of them. -/
theorem parseFrom_induction {inp : List Byte} {P : Nat → List Block → Prop} (stop : P inp.length [])
    (lit : ∀ src run bs, 1 ≤ run → run ≤ 255 → src + run ≤ inp.length → P (src + run) bs →
      P src (.lit ((inp.drop src).take run) :: bs))
    (copy : ∀ src bs, src < inp.length → 4 ≤ (matchAt inp src).len → P (src + (matchAt inp src).len) bs →
      P src (.copy (matchAt inp src).off (matchAt inp src).len :: bs))
    {k src : Nat} (hsrc : src ≤ inp.length) (hk : inp.length ≤ src + k) : P src (parseFrom inp k src) := by
  induction k generalizing src with
  | zero => exact Nat.le_antisymm hsrc hk ▸ stop
  | succ k ih =>
    refine iteInduction (motive := P src)
      (fun hlt => iteInduction (motive := P src) (fun hprof => ?copy) fun _ => ?lit)
      fun hge => Nat.le_antisymm hsrc (Nat.le_of_not_lt hge) ▸ stop
    case copy =>
      have hlen : 4 ≤ (matchAt inp src).len := of_decide_eq_true hprof
      obtain ⟨-, -, -, -, hend⟩ := matchAt_copyRange hsrc hlen
      exact copy src _ hlt hlen (ih hend (by omega))
    case lit =>
      obtain ⟨hlo, hhi, hend⟩ := litRun_range (matchAt inp src) hlt
      exact lit src _ _ hlo hhi hend (ih hend (by omega))

/-! ### What each block adds -/

@[simp] theorem Block.produces_lit (bytes : List Byte) : (Block.lit bytes).produces = bytes.length := rfl

@[simp] theorem Block.produces_copy (off len : Nat) : (Block.copy off len).produces = len := rfl

@[simp] theorem copiesInside_lit (dst : Nat) (bytes : List Byte) (bs : List Block) :
    copiesInside dst (.lit bytes :: bs) = copiesInside (dst + bytes.length) bs := rfl

theorem literalRun_length {inp : List Byte} {src run : Nat} (h : src + run ≤ inp.length) :
    ((inp.drop src).take run).length = run :=
  List.length_take_of_le (by rw [List.length_drop]; omega)

theorem parse_canonical (inp : List Byte) : (parse inp).all Block.canonical = true := by
  refine parseFrom_induction (P := fun _ bs => bs.all Block.canonical = true) rfl ?lit ?copy (Nat.zero_le _)
    (Nat.le_add_left ..)
  case lit =>
    intro src run bs hlo hhi hin ih
    rw [← literalRun_length hin] at hlo hhi
    exact Bool.and_eq_true_iff.2 ⟨decide_eq_true ⟨hlo, hhi⟩, ih⟩
  case copy =>
    intro src bs hsrc hlen ih
    obtain ⟨hmax, hpos, hwin, -, -⟩ := matchAt_copyRange hsrc.le hlen
    exact Bool.and_eq_true_iff.2 ⟨decide_eq_true ⟨hlen, hmax, hpos, hwin⟩, ih⟩

theorem parse_copiesInside (inp : List Byte) : copiesInside 0 (parse inp) = true := by
  refine parseFrom_induction (P := fun src bs => copiesInside src bs = true) rfl ?lit ?copy (Nat.zero_le _)
    (Nat.le_add_left ..)
  case lit =>
    intro src run bs _ _ hin ih
    rwa [copiesInside_lit, literalRun_length hin]
  case copy =>
    intro src bs hsrc hlen ih
    obtain ⟨-, -, -, hback, -⟩ := matchAt_copyRange hsrc.le hlen
    exact Bool.and_eq_true_iff.2 ⟨decide_eq_true hback, ih⟩

theorem parse_produces_length (inp : List Byte) : ((parse inp).map Block.produces).sum = inp.length := by
  have hsum : 0 + ((parse inp).map Block.produces).sum = inp.length := by
    refine parseFrom_induction (P := fun src bs => src + (bs.map Block.produces).sum = inp.length) rfl ?lit ?copy
      (Nat.zero_le _) (Nat.le_add_left ..)
    case lit =>
      intro src run bs _ _ hin ih
      rw [List.map_cons, List.sum_cons, Block.produces_lit, literalRun_length hin, ← Nat.add_assoc, ih]
    case copy =>
      intro src bs _ _ ih
      rw [List.map_cons, List.sum_cons, Block.produces_copy, ← Nat.add_assoc, ih]
  rwa [Nat.zero_add] at hsum

/-- The short form is two bytes, the long one three (R94, R95). -/
theorem copyBody_length (off len : Nat) : (copyBody off len).length = if len ≤ 11 then 2 else 3 := by
  by_cases h : len ≤ 11
  · have hc : len - 4 ≤ 7 := by omega
    rw [if_pos h]
    exact congrArg List.length (if_pos hc)
  · have hc : ¬len - 4 ≤ 7 := by omega
    rw [if_neg h]
    exact congrArg List.length (if_neg hc)

/-- Settles O42: the ranges, the sources and the lengths by induction along the parse; the form is the copy body's own. -/
theorem blocksAreCanonical : Obligations.BlocksAreCanonical := by
  refine fun inp => ⟨parse_canonical inp, parse_copiesInside inp, parse_produces_length inp, fun off len _ => ?_⟩
  rw [copyBody_length]
  by_cases h : len ≤ 11
  · rw [if_pos h]
    exact iff_of_true rfl h
  · rw [if_neg h]
    exact iff_of_false (Nat.succ_ne_self 2) h

end Sys2Proof.Machine
end

section
/-! PROOFS. The filter's byte arithmetic: the magnitude of a residual byte (R124), the cost of a residual row (R125) and
the residual rows of the three predictors (R121 to R123). -/

namespace Sys2Proof.Machine

open Sys2Proof

/-! ### Magnitude -/

/-- A byte up to 127 reads as itself, any other as itself less 256 (R124). -/
theorem mag_eq_natAbs_toInt (b : Byte) : mag b = if b.toInt = -128 then 127 else b.toInt.natAbs := by
  have hlt := b.isLt
  by_cases hpos : b.toNat ≤ 127
  · have hint : b.toInt = b.toNat := BitVec.toInt_eq_toNat_of_lt (by omega)
    rw [mag, if_neg (by omega), if_pos hpos, hint, if_neg (by omega), Int.natAbs_natCast]
  · have hint : b.toInt = b.toNat - 256 := by
      rw [BitVec.toInt_eq_toNat_cond, if_neg (by omega)]
      rfl
    rw [mag, hint]
    split_ifs <;> omega

theorem mag_neg (b : Byte) : mag (-b) = mag b := by
  have hlt := b.isLt
  have hneg : (-b).toNat = (256 - b.toNat) % 256 := BitVec.toNat_neg b
  rw [mag, mag, hneg]
  split_ifs <;> omega

/-- Settles O27: the signed reading, the symmetry and the bound of `mag`. -/
theorem magnitudeOfSignedByte : Obligations.MagnitudeOfSignedByte :=
  fun b => ⟨mag_eq_natAbs_toInt b, mag_neg b, mag_le b⟩

/-! ### Cost -/

theorem costOf_eq_sum (res : List Byte) : costOf res = (res.map mag).sum := by
  induction res with
  | nil => rfl
  | cons b bs ih => rw [costOf, ih, List.map_cons, List.sum_cons]

/-- Leaving out the first pixel leaves no more bytes to count. -/
theorem costOf_drop_le (k : Nat) (res : List Byte) : costOf (res.drop k) ≤ 127 * res.length :=
  (costOf_le _).trans (Nat.mul_le_mul_left 127 (by rw [List.length_drop]; exact Nat.sub_le ..))

theorem costFor_le (x : Pred) (res : List Byte) : costFor x res ≤ 127 * res.length := by
  cases x with
  | a => exact costOf_drop_le 3 res
  | b => exact costOf_le res
  | c => exact costOf_drop_le 3 res

/-- Settles O22: the cost is a sum over the bytes it counts, each at most 127. -/
theorem costSumsMagnitudes : Obligations.CostSumsMagnitudes :=
  fun res => ⟨costOf_eq_sum _, costOf_eq_sum _, costOf_eq_sum _, fun x => costFor_le x res⟩

/-! ### Residual rows -/

/-- A difference of bytes is taken mod 256, on numbers that do not go below 0 (R121 to R123). -/
theorem byte_sub_toNat (x y : Byte) : (x - y).toNat = (256 + x.toNat - y.toNat) % 256 := by
  have hy := y.isLt
  rw [BitVec.toNat_sub]
  omega

/-- The average of two bytes is a byte (R128). -/
theorem average_toNat (left up : Byte) : (average left up).toNat = (left.toNat + up.toNat) / 2 := by
  have hl := left.isLt
  have hu := up.isLt
  exact (BitVec.toNat_ofNat _ 8).trans (Nat.mod_eq_of_lt (by omega))

/-- A row that starts with the first pixel verbatim (R121, R123): the sample itself, then the residuals that follow. -/
theorem getElem?_pixel_append {cur : List Byte} (h : 3 ≤ cur.length) (rest : List Byte) (i : Nat) :
    (cur.take Config.pixelSize ++ rest)[i]? = if i < 3 then cur[i]? else rest[i - 3]? := by
  have hlen : (cur.take Config.pixelSize).length = 3 := List.length_take_of_le h
  rw [List.getElem?_append, hlen]
  split
  · rw [List.getElem?_take_of_lt ‹_›]
  · rfl

theorem getElem?_eq_some_getD {cur : List Byte} {i : Nat} (h : i < cur.length) : cur[i]? = some (cur.getD i 0) := by
  rw [List.getD_eq_getElem cur 0 h, List.getElem?_eq_getElem h]

/-- Past the first pixel a row's tail is addressed by the sample's own index. -/
theorem getElem?_drop_pixel {cur : List Byte} {i : Nat} (hlo : 3 ≤ i) (h : i < cur.length) :
    (cur.drop Config.pixelSize)[i - 3]? = some (cur.getD i 0) := by
  rw [List.getElem?_drop, Nat.add_sub_cancel' hlo, getElem?_eq_some_getD h]

theorem residualA_getElem? {cur : List Byte} {i : Nat} (hpix : 3 ≤ cur.length) (hi : i < cur.length) :
    (residualA cur)[i]? = some (if i < 3 then cur.getD i 0 else cur.getD (i - 3) 0 - cur.getD i 0) := by
  rw [residualA, getElem?_pixel_append hpix]
  split
  · exact getElem?_eq_some_getD hi
  · rw [List.getElem?_zipWith, getElem?_eq_some_getD (by omega), getElem?_drop_pixel (by omega) hi]

theorem residualB_getElem? {prev cur : List Byte} {i : Nat} (hlen : prev.length = cur.length) (hi : i < cur.length) :
    (residualB prev cur)[i]? = some (prev.getD i 0 - cur.getD i 0) := by
  rw [residualB, List.getElem?_zipWith, getElem?_eq_some_getD (hlen ▸ hi), getElem?_eq_some_getD hi]

theorem residualC_getElem? {prev cur : List Byte} {i : Nat} (hpix : 3 ≤ cur.length) (hlen : prev.length = cur.length)
    (hi : i < cur.length) :
    (residualC prev cur)[i]? =
      some (if i < 3 then cur.getD i 0 else cur.getD i 0 - average (cur.getD (i - 3) 0) (prev.getD i 0)) := by
  rw [residualC, getElem?_pixel_append hpix]
  split
  · exact getElem?_eq_some_getD hi
  · rw [List.getElem?_zipWith, List.getElem?_zipWith, getElem?_eq_some_getD (by omega),
      getElem?_drop_pixel (by omega) (hlen ▸ hi), getElem?_drop_pixel (by omega) hi]

/-- Settles O21: each residual byte is a difference of bytes, read as a number mod 256. -/
theorem residualRowsFollowFormulas : Obligations.ResidualRowsFollowFormulas := by
  refine ⟨fun cur i hpix hi => ?a, fun prev cur i hlen hi => ?b, fun prev cur i hpix hlen hi => ?c,
    fun cur _ => residualA_length cur, fun _ _ => residualB_length, fun _ _ _ => residualC_length⟩
  case a => rw [residualA_getElem? hpix hi, Option.map_some, apply_ite BitVec.toNat, byte_sub_toNat]
  case b => rw [residualB_getElem? hlen hi, Option.map_some, byte_sub_toNat]
  case c =>
    rw [residualC_getElem? hpix hlen hi, Option.map_some, apply_ite BitVec.toNat, byte_sub_toNat, average_toNat]

end Sys2Proof.Machine
end

section
/-! PROOFS. The first row of an image (R127): it is recorded with predictor A's id and residual row, and no later row
writes there (R66, R131). -/

namespace Sys2Proof.Machine

open Sys2Proof

/-! ### Ranged reads -/

theorem Memory.readRange_of_reads {m : Memory} {bs : List Byte} {a : Nat}
    (h : ∀ j (hj : j < bs.length), m.read (a + j) = .ok bs[j]) : m.readRange bs.length a = .ok bs := by
  induction bs generalizing a with
  | nil => rfl
  | cons b bs ih =>
    have hhead : m.read a = .ok b := h 0 (Nat.succ_pos _)
    have htail : m.readRange bs.length (a + 1) = .ok bs := ih fun j hj => by
      rw [Nat.add_assoc, Nat.add_comm 1 j]
      exact h (j + 1) (Nat.succ_lt_succ hj)
    simp only [List.length_cons, Memory.readRange, hhead, htail]

/-- What has been written is read back as a range. -/
theorem Memory.readRange_writeBytes {m m' : Memory} {bs : List Byte} {a : Nat} (h : m.writeBytes bs a = .ok m') :
    m'.readRange bs.length a = .ok bs := by
  obtain ⟨-, -, hread, -⟩ := Memory.writeBytes_ok h
  exact Memory.readRange_of_reads hread

/-! ### Moves of the filter -/

/-- What a predictor leaves alone: all but the candidate, the row's results and the next line (R25, R26). -/
def Flt.SameImage (f g : Flt) : Prop :=
  g.st = f.st ∧ g.w = f.w ∧ g.h = f.h ∧ g.pix = f.pix ∧ g.fs = f.fs ∧ g.row = f.row

theorem fltConsider_a (cand : List Byte) (f : Flt) :
    fltConsider .a cand f =
      { f with
        cand := cand, cost := costFor .a cand, best := .a, bestCost := costFor .a cand, res := cand } := by
  obtain ⟨-, h⟩ | ⟨⟨hne, -⟩, -⟩ := fltConsider_cases .a cand f
  · exact h
  · exact absurd rfl hne

theorem fltConsider_sameImage (x : Pred) (cand : List Byte) (f : Flt) (ph : FltPhase) :
    f.SameImage { fltConsider x cand f with phase := ph } := by
  obtain ⟨-, h⟩ | ⟨-, h⟩ := fltConsider_cases x cand f <;> rw [h] <;> exact ⟨rfl, rfl, rfl, rfl, rfl, rfl⟩

theorem fltExec_predictor_sameImage {x : Pred} {f g : Flt} (h : fltExec x.instr f = .next g) : f.SameImage g := by
  cases x with
  | a =>
    obtain ⟨cur, -, rfl⟩ := fltPredA_eq_next h
    exact fltConsider_sameImage ..
  | b =>
    obtain ⟨-, cur, prev, -, -, rfl⟩ := fltPredB_eq_next h
    exact fltConsider_sameImage ..
  | c =>
    obtain ⟨-, cur, prev, -, -, rfl⟩ := fltPredC_eq_next h
    exact fltConsider_sameImage ..

theorem fltMove_of_record {p : Params} {f : Flt} (hph : f.phase = .record) : fltMove p f = fltRecord p f := by
  cases f
  cases hph
  rfl

/-- At a predictor's line the row loop ends when a new row would be past the image's last, and else runs the predictor
(R131). -/
theorem fltMove_of_predictor {p : Params} {f : Flt} {x : Pred} (hph : f.phase = .predictor x) :
    (x = .a ∧ f.h.toNat ≤ f.row) ∧ fltMove p f = .next (fltFinish f) ∨
      (x = .a → f.row < f.h.toNat) ∧ fltMove p f = fltExec x.instr f := by
  have hfetch : fltFetch f = if x = .a ∧ f.h.toNat ≤ f.row then .finish else .run x.instr := by
    cases f
    cases hph
    rfl
  by_cases hend : x = .a ∧ f.h.toNat ≤ f.row
  · rw [if_pos hend] at hfetch
    exact .inl ⟨hend, by rw [fltMove, hfetch]⟩
  · rw [if_neg hend] at hfetch
    exact .inr ⟨fun hx => Nat.not_le.1 fun hle => hend ⟨hx, hle⟩, by rw [fltMove, hfetch]⟩

theorem fltMove_of_predA {p : Params} {f : Flt} (hph : f.phase = .predictor .a) (hrow : f.row < f.h.toNat) :
    fltMove p f = fltPredA f := by
  obtain ⟨⟨-, hend⟩, -⟩ | ⟨-, hmove⟩ := fltMove_of_predictor (p := p) hph
  · exact absurd hrow (Nat.not_lt.2 hend)
  · exact hmove

/-- Everything a move can do (R131): the end after the last row, the recording of a row, or a predictor. -/
theorem fltMove_cases {p : Params} {f g : Flt} (h : fltMove p f = .next g) :
    g = fltFinish f ∨ (f.phase = .record ∧ fltRecord p f = .next g) ∨
      ∃ x, f.phase = .predictor x ∧ (x = .a → f.row < f.h.toNat) ∧ fltExec x.instr f = .next g := by
  cases hph : f.phase with
  | record => exact .inr (.inl ⟨rfl, fltMove_of_record hph ▸ h⟩)
  | predictor x =>
    obtain ⟨-, hmove⟩ | ⟨hrow, hmove⟩ := fltMove_of_predictor (p := p) hph
    · exact .inl (Host.Outcome.next.inj (h.symm.trans hmove))
    · exact .inr (.inr ⟨x, rfl, hrow, hmove ▸ h⟩)

theorem fltRun_succ_busy {p : Params} {f : Flt} (k : Nat) (hb : f.st.busy = true) :
    fltRun p (k + 1) f = andThen (fltMove p f) (fltRun p k) :=
  if_pos hb

theorem fltRun_idle {p : Params} {f : Flt} (k : Nat) (hb : f.st.busy = false) : fltRun p k f = .next f := by
  cases k with
  | zero => rfl
  | succ k => exact if_neg (by simp [hb])

/-- What must hold for `FILTER_IMAGE` to begin, and the state it begins in (R131). -/
theorem fltStart_eq_next {p : Params} {f g : Flt} (h : fltStart p f = .next g) :
    f.h ≠ 0 ∧ ∃ fs, g = { fltBegin f with fs := fs } := by
  cases hb : f.st.busy with
  | true =>
    rw [fltStart, if_pos hb] at h
    cases h
  | false =>
    rw [fltStart, if_neg (by simp [hb])] at h
    by_cases hreq : f.w ≠ 0 ∧ f.h ≠ 0 ∧ f.pix.size = f.h.toNat * fltStride f
    · rw [if_pos hreq] at h
      obtain ⟨-, hh, -⟩ := hreq
      obtain ⟨fs, -, h⟩ := access_eq_next.1 h
      exact ⟨hh, fs, (Host.Outcome.next.inj h).symm⟩
    · rw [if_neg hreq] at h
      cases h

/-! ### The first row in the output space -/

/-- The output space holds `id` as the first id and `res` from the residual buffer's start (R66). -/
def FirstRowStored (rows stride : Nat) (id : Byte) (res : List Byte) (fs : Memory) : Prop :=
  fs.read 8 = .ok id ∧ fs.readRange stride (8 + rows) = .ok res

/-- Recording a later row leaves the first one alone: its id stands below the residual buffer and above address 8, its
residual row a stride or more from the buffer's start. -/
theorem FirstRowStored.of_write {rows stride row : Nat} {id id' : Byte} {res res' : List Byte} {fs fs₁ fs₂ : Memory}
    (hst : FirstRowStored rows stride id res fs) (hpos : 0 < row) (hrow : row < rows)
    (hid : fs.write (8 + row) id' = .ok fs₁) (hres : fs₁.writeBytes res' (8 + rows + row * stride) = .ok fs₂) :
    FirstRowStored rows stride id res fs₂ := by
  obtain ⟨hid₀, hres₀⟩ := hst
  obtain ⟨-, -, -, houtside⟩ := Memory.writeBytes_ok hres
  have hkept : ∀ x, x < 8 + rows + row * stride → x ≠ 8 + row → fs₂.read x = fs.read x := fun x hx hne => by
    rw [houtside x (.inl hx), Memory.read_write_other hid hne]
  have hstride : stride ≤ row * stride := Nat.le_mul_of_pos_left stride hpos
  constructor
  · rw [hkept 8 (by omega) (by omega), hid₀]
  · rw [Memory.readRange_congr fun j hj => hkept (8 + rows + j) (by omega) (by omega), hres₀]

/-- The invariant of the row loop after the first row: that row is stored, and only rows of the image are recorded. -/
def PastFirstRow (rows stride : Nat) (id : Byte) (res : List Byte) (f : Flt) : Prop :=
  f.h.toNat = rows ∧ fltStride f = stride ∧ 0 < f.row ∧ (f.phase ≠ .predictor .a → f.row < rows) ∧
    FirstRowStored rows stride id res f.fs

theorem PastFirstRow.stored {rows stride : Nat} {id : Byte} {res : List Byte} {f : Flt}
    (hf : PastFirstRow rows stride id res f) : FirstRowStored rows stride id res f.fs := by
  obtain ⟨-, -, -, -, hst⟩ := hf
  exact hst

/-- A move after the first row either ends the command with the output space as it was, or keeps the invariant. -/
theorem PastFirstRow.move {rows stride : Nat} {id : Byte} {res : List Byte} {p : Params} {f g : Flt}
    (hf : PastFirstRow rows stride id res f) (h : fltMove p f = .next g) :
    g = fltFinish f ∨ PastFirstRow rows stride id res g := by
  obtain ⟨hrows, hstride, hpos, hlt, hst⟩ := hf
  obtain hfin | ⟨hph, hrec⟩ | ⟨x, hph, hfetch, hexec⟩ := fltMove_cases h
  · exact .inl hfin
  · obtain ⟨fs₁, fs₂, hid, hres, rfl⟩ := fltRecord_eq_next hrec
    rw [hrows, hstride] at hres
    exact .inr ⟨hrows, hstride, Nat.succ_pos _, fun hne => absurd rfl hne,
      hst.of_write hpos (hlt (by simp [hph])) hid hres⟩
  · obtain ⟨-, hw, hh, -, hfs, hrow⟩ := fltExec_predictor_sameImage hexec
    have hinside : f.row < rows := by
      by_cases hx : x = .a
      · exact hrows ▸ hfetch hx
      · exact hlt fun hph' => hx (FltPhase.predictor.inj (hph.symm.trans hph'))
    refine .inr ⟨hh ▸ hrows, ?_, hrow ▸ hpos, fun _ => hrow ▸ hinside, hfs ▸ hst⟩
    rw [← hstride, fltStride, fltStride, hw]

/-- However many moves follow, the first row stays stored. -/
theorem PastFirstRow.run {rows stride : Nat} {id : Byte} {res : List Byte} {p : Params} {k : Nat} {f g : Flt}
    (hf : PastFirstRow rows stride id res f) (h : fltRun p k f = .next g) :
    FirstRowStored rows stride id res g.fs := by
  induction k generalizing f with
  | zero => exact Host.Outcome.next.inj h ▸ hf.stored
  | succ k ih =>
    cases hb : f.st.busy with
    | false =>
      rw [fltRun_idle _ hb] at h
      exact Host.Outcome.next.inj h ▸ hf.stored
    | true =>
      rw [fltRun_succ_busy k hb] at h
      obtain ⟨f', hmove, hrun⟩ := andThen_eq_next.1 h
      obtain rfl | hf' := hf.move hmove
      · rw [fltRun_idle k rfl] at hrun
        exact Host.Outcome.next.inj hrun ▸ hf.stored
      · exact ih hf' hrun

/-- Predictor A and the recording of row 0 (R127, R131) put its id and residual row in their places. -/
theorem fltRecord_firstRow {p : Params} {f f₁ f₂ : Flt} {cur : List Byte} (hrow : f.row = 0) (hrows : 0 < f.h.toNat)
    (hcur : fltRowBytes f 0 = .ok cur) (hpred : fltPredA f = .next f₁) (hrec : fltRecord p f₁ = .next f₂) :
    PastFirstRow f.h.toNat (fltStride f) p.idA (residualA cur) f₂ := by
  obtain ⟨cur', hcur', rfl⟩ := fltPredA_eq_next hpred
  obtain rfl : cur = cur' := Except.ok.inj (hcur.symm.trans (hrow ▸ hcur'))
  rw [fltConsider_a] at hrec
  obtain ⟨fs₁, fs₂, hid, hres, rfl⟩ := fltRecord_eq_next hrec
  simp only [hrow, Nat.zero_mul, Nat.add_zero] at hid hres
  obtain ⟨-, -, -, houtside⟩ := Memory.writeBytes_ok hres
  have hlen : (residualA cur).length = fltStride f := (residualA_length cur).trans (fltRowBytes_length hcur)
  refine ⟨rfl, rfl, Nat.succ_pos _, fun hne => absurd rfl hne, ?_, hlen ▸ Memory.readRange_writeBytes hres⟩
  rw [houtside 8 (.inl (Nat.lt_add_of_pos_right hrows)), Memory.read_write_same hid]
  rfl

/-- From row 0 the first two moves record predictor A's row (R127), and every later move keeps it. -/
theorem fltRun_firstRow {p : Params} {k : Nat} {f g : Flt} {cur : List Byte} (hb : f.st.busy = true)
    (hph : f.phase = .predictor .a) (hrow : f.row = 0) (hrows : 0 < f.h.toNat) (hcur : fltRowBytes f 0 = .ok cur)
    (h : fltRun p (k + 2) f = .next g) :
    FirstRowStored f.h.toNat (fltStride f) p.idA (residualA cur) g.fs := by
  rw [fltRun_succ_busy (k + 1) hb, fltMove_of_predA hph (hrow ▸ hrows)] at h
  obtain ⟨f₁, hpred, h⟩ := andThen_eq_next.1 h
  obtain ⟨hst, -⟩ := fltExec_predictor_sameImage (x := .a) hpred
  have hph₁ : f₁.phase = .record := by
    obtain ⟨_, -, rfl⟩ := fltPredA_eq_next hpred
    exact if_pos hrow
  rw [fltRun_succ_busy k (hst ▸ hb), fltMove_of_record hph₁] at h
  obtain ⟨f₂, hrec, h⟩ := andThen_eq_next.1 h
  exact (fltRecord_firstRow hrow hrows hcur hpred hrec).run h

/-- Settles O31: `FILTER_IMAGE` begins at row 0 of an image of at least one row, with moves enough for it. -/
theorem firstRowUsesA : Obligations.FirstRowUsesA := by
  intro s t cur hexec hcur
  obtain ⟨f, hf, rfl⟩ := onFlt_eq_next.1 hexec
  obtain ⟨g, hstart, hrun⟩ := andThen_eq_next.1 hf
  obtain ⟨hne, fs, hg⟩ := fltStart_eq_next hstart
  have hrows : 0 < s.flt.h.toNat := Nat.pos_of_ne_zero fun h => hne (BitVec.eq_of_toNat_eq h)
  have hgrows : g.h.toNat = s.flt.h.toNat := hg ▸ rfl
  have hfuel : fltFuel g = 4 * s.flt.h.toNat - 1 + 2 := by rw [fltFuel, hgrows]; omega
  have hbytes : fltRowBytes g 0 = .ok cur := by
    rw [fltRowBytes, Nat.zero_mul, hg]
    exact hcur
  rw [hfuel] at hrun
  obtain ⟨hid, hres⟩ := fltRun_firstRow (hg ▸ rfl) (hg ▸ rfl) (hg ▸ rfl) (hgrows ▸ hrows) hbytes hrun
  rw [hg] at hres
  exact ⟨hid, hres⟩

end Sys2Proof.Machine
end

section
/-! PROOFS. The compressor's deferred-write queue and block constructors (R154 to R157), and its answer to an empty input
(R159). -/

namespace Sys2Proof.Machine

open Sys2Proof

/-! ### The tag queue -/

theorem ofBool_setWidth_toNat (tag : Bool) : ((BitVec.ofBool tag).setWidth 8).toNat = tag.toNat := by
  cases tag <;> rfl

/-- A tag's bit goes above the bits already queued, so that joining it is adding it (R156). -/
theorem accWithTag_toNat {acc : Byte} {tag : Bool} {nq : Nat} (hnq : nq < 8) (hacc : acc.toNat < 2 ^ nq) :
    (accWithTag acc tag nq).toNat = acc.toNat + (if tag then 2 ^ nq else 0) := by
  have hbit : tag.toNat <<< nq = if tag then 2 ^ nq else 0 := by
    cases tag
    · exact Nat.zero_shiftLeft nq
    · exact Nat.one_shiftLeft nq
  have hpow : 2 ^ nq < 2 ^ 8 := Nat.pow_lt_pow_right Nat.one_lt_two hnq
  have hfits : tag.toNat <<< nq < 2 ^ 8 := by
    rw [hbit]
    split <;> omega
  calc (accWithTag acc tag nq).toNat
      = acc.toNat ||| tag.toNat <<< nq := by
        rw [accWithTag, BitVec.toNat_or, BitVec.toNat_shiftLeft, ofBool_setWidth_toNat, Nat.mod_eq_of_lt hfits]
    _ = tag.toNat <<< nq + acc.toNat := by rw [Nat.or_comm, Nat.shiftLeft_add_eq_or_of_lt hacc]
    _ = acc.toNat + (if tag then 2 ^ nq else 0) := by rw [hbit, Nat.add_comm]

/-- `PUSH` queues the block, and the eighth flushes its group (R156). -/
theorem encPush_eq (tag : Bool) (body : List Byte) (e : Enc) :
    encPush tag body e =
      if e.nq = 7 then encFlush { e with acc := accWithTag e.acc tag e.nq, q := e.q ++ body, nq := e.nq + 1 }
      else .next { e with acc := accWithTag e.acc tag e.nq, q := e.q ++ body, nq := e.nq + 1 } := by
  obtain ⟨hnq, hpush⟩ | ⟨hnq, hpush⟩ := encPush_cases tag body e
  · rw [hpush, if_neg (by omega)]
  · rw [hpush, if_pos (by omega)]

/-- `FLUSH` with room for the group: the control byte, the bodies behind it, every other byte as before (R157). -/
theorem encFlush_of_room {e : Enc} (hroom : e.wp + (1 + e.q.length) ≤ e.out.size) :
    ∃ out : Memory,
      encFlush e = .next { e with out := out, wp := e.wp + (1 + e.q.length), acc := 0, nq := 0, q := [] } ∧
        out.size = e.out.size ∧ out.read e.wp = .ok e.acc ∧ out.readRange e.q.length (e.wp + 1) = .ok e.q ∧
        e.out.SameOutside out e.wp (1 + e.q.length) := by
  have hlen : (e.acc :: e.q).length = 1 + e.q.length := Nat.add_comm ..
  obtain ⟨out, hwrite⟩ := Memory.writeBytes_total e.out (e.acc :: e.q) e.wp (hlen ▸ hroom)
  obtain ⟨hsize, -, hread, hother⟩ := Memory.writeBytes_ok hwrite
  refine ⟨out, by rw [encFlush, hwrite, access_ok], hsize, hread 0 (Nat.succ_pos _), ?_, hlen ▸ hother⟩
  refine Memory.readRange_of_reads fun j hj => ?_
  rw [Nat.add_assoc, Nat.add_comm 1 j]
  exact hread (j + 1) (Nat.succ_lt_succ hj)

/-- Settles O38: the accumulator `PUSH` leaves is the old one plus the tag's free bit; the flush is its lemma. -/
theorem pushQueuesFlushWrites : Obligations.PushQueuesFlushWrites :=
  ⟨fun e tag body hnq hacc => ⟨accWithTag e.acc tag e.nq, accWithTag_toNat hnq hacc, encPush_eq tag body e⟩,
    fun _ hroom => encFlush_of_room hroom⟩

/-! ### The block constructors -/

/-- A freshly allocated space has no byte with a value (log 4). -/
@[simp] theorem Memory.alloc_holds (k a : Nat) : (Memory.alloc k).holds a = false := by
  rw [Memory.holds, Memory.alloc_read]

/-- What `raise` leaves of `ENC` (R214): the fault and its code, the argument and the input, no output (log 4). -/
theorem encRaise_faulted (c : Cause) (e : Enc) :
    (encRaise c e).st.busy = false ∧ (encRaise c e).st.done = false ∧ (encRaise c e).st.fault = true ∧
      (encRaise c e).st.faultCode = faultCodeOf c ∧ (encRaise c e).n = e.n ∧ (encRaise c e).inp = e.inp ∧
      ∀ a, (encRaise c e).out.holds a = false :=
  ⟨rfl, rfl, rfl, rfl, rfl, rfl, Memory.alloc_holds _⟩

/-- `EMIT_LITERAL` outside the format's range raises its cause (R154, R215). -/
theorem encEmitLiteral_outOfRange {bytes : List Byte} {e : Enc} {next : Enc → Result Enc}
    (h : bytes.length < 1 ∨ 255 < bytes.length) :
    encEmitLiteral bytes e next = .next (encRaise .encLiteralLength e) :=
  if_pos h

/-- `EMIT_COPY` outside the format's ranges raises its cause (R155, R215). -/
theorem encEmitCopy_outOfRange {off len : Nat} {e : Enc} {next : Enc → Result Enc}
    (h : len < 4 ∨ 2051 < len ∨ off < 1 ∨ 4095 < off) :
    encEmitCopy off len e next = .next (encRaise .encCopyRange e) :=
  if_pos h

theorem loByte_eq_ofNat (w : Word) : loByte w = BitVec.ofNat 8 (w.toNat % 256) := by
  apply BitVec.eq_of_toNat_eq
  rw [loByte, BitVec.toNat_setWidth, BitVec.toNat_ofNat]
  omega

theorem hiByte_eq_ofNat (w : Word) : hiByte w = BitVec.ofNat 8 (w.toNat / 256) := by
  apply BitVec.eq_of_toNat_eq
  rw [hiByte, BitVec.toNat_setWidth, BitVec.toNat_ushiftRight, BitVec.toNat_ofNat, Nat.shiftRight_eq_div_pow]

/-- The copy word on operands inside their fields is `off * 16 + 8 * S + c` (R93). -/
theorem copyWord_ofNat_toNat {off c : Nat} (short : Bool) (hoff : off ≤ 4095) (hc : c ≤ 7) :
    (copyWord (BitVec.ofNat 12 off) short (BitVec.ofNat 3 c)).toNat = off * 16 + ((if short then 8 else 0) + c) := by
  rw [copyWord_toNat, BitVec.toNat_ofNat, BitVec.toNat_ofNat, Nat.mod_eq_of_lt (by omega), Nat.mod_eq_of_lt (by omega),
    Nat.add_assoc]

/-- The short copy body (R94): the word alone, bit 3 set. -/
theorem copyBody_short {off len : Nat} (hoff : off ≤ 4095) (hc : len - 4 ≤ 7) :
    copyBody off len =
      [BitVec.ofNat 8 ((off * 16 + (8 + (len - 4))) % 256), BitVec.ofNat 8 ((off * 16 + (8 + (len - 4))) / 256)] := by
  have hbody : copyBody off len =
      [loByte (copyWord (BitVec.ofNat 12 off) true (BitVec.ofNat 3 (len - 4))),
        hiByte (copyWord (BitVec.ofNat 12 off) true (BitVec.ofNat 3 (len - 4)))] := if_pos hc
  rw [hbody, loByte_eq_ofNat, hiByte_eq_ofNat, copyWord_ofNat_toNat true hoff hc, if_pos rfl]

/-- The long copy body (R95): the word with the count's high bits, then the count's low byte. -/
theorem copyBody_long {off len : Nat} (hoff : off ≤ 4095) (hlen : len ≤ 2051) (hc : ¬len - 4 ≤ 7) :
    copyBody off len =
      [BitVec.ofNat 8 ((off * 16 + (len - 4) / 256) % 256), BitVec.ofNat 8 ((off * 16 + (len - 4) / 256) / 256),
        BitVec.ofNat 8 ((len - 4) % 256)] := by
  have hbody : copyBody off len =
      [loByte (copyWord (BitVec.ofNat 12 off) false (BitVec.ofNat 3 ((len - 4) / 256))),
        hiByte (copyWord (BitVec.ofNat 12 off) false (BitVec.ofNat 3 ((len - 4) / 256))),
        BitVec.ofNat 8 (len - 4)] := if_neg hc
  have hlow : BitVec.ofNat 8 (len - 4) = BitVec.ofNat 8 ((len - 4) % 256) :=
    BitVec.eq_of_toNat_eq (Nat.mod_mod (len - 4) 256).symm
  rw [hbody, hlow, loByte_eq_ofNat, hiByte_eq_ofNat, copyWord_ofNat_toNat false hoff (by omega),
    if_neg Bool.false_ne_true, Nat.zero_add]

/-- Settles O45: outside the ranges `raise`, inside them one `PUSH`, of a copy's short or long body by its count. -/
theorem blockConstructorsValidate : Obligations.BlockConstructorsValidate := by
  refine ⟨fun e bytes next => ⟨fun hout => ?_, fun hlo hhi => encEmitLiteral_inRange ⟨hlo, hhi⟩⟩,
    fun e off len next => ⟨fun hout => ?_, fun hlen hlen' hoff hoff' => ?_⟩⟩
  · exact ⟨_, encEmitLiteral_outOfRange hout, encRaise_faulted .encLiteralLength e⟩
  · exact ⟨_, encEmitCopy_outOfRange hout, encRaise_faulted .encCopyRange e⟩
  · rw [encEmitCopy_inRange ⟨hlen, hlen', hoff, hoff'⟩]
    by_cases hc : len - 4 ≤ 7
    · rw [copyBody_short hoff' hc, if_pos hc, if_pos hc]
    · rw [copyBody_long hoff' hlen' hc, if_neg hc, if_neg hc]
      rfl

/-! ### An empty input -/

theorem encRun_succ_busy {e : Enc} (k : Nat) (hb : e.st.busy = true) :
    encRun (k + 1) e = andThen (encMove e) (encRun k) :=
  if_pos hb

theorem encRun_idle {e : Enc} (k : Nat) (hb : e.st.busy = false) : encRun k e = .next e := by
  cases k with
  | zero => rfl
  | succ k => exact if_neg (by simp [hb])

theorem encMove_of_consumed {e : Enc} (h : e.n ≤ e.src) : encMove e = encEnd e :=
  if_neg (Nat.not_lt.2 h)

/-- At the end of the command an empty group writes nothing (R158, R159). -/
theorem encEnd_of_emptyGroup {e : Enc} (h : e.nq = 0) : encEnd e = .next (encFinish e) :=
  if_pos h

/-- `COMPRESS` of no bytes is its start and its end (R159). -/
theorem encCompress_of_empty {e : Enc} (hb : e.st.busy = false) (hn : e.n = 0) (hsz : e.inp.size = 0) :
    encCompress e = .next (encFinish (encBegin e)) := by
  have hstart : encStart e = .next (encBegin e) :=
    encStart_eq_begin hb (hn ▸ Nat.zero_le _) (hsz.trans hn.symm)
  have hmove : encMove (encBegin e) = .next (encFinish (encBegin e)) :=
    (encMove_of_consumed (le_of_eq hn)).trans (encEnd_of_emptyGroup (encBegin_nq e))
  rw [encCompress, hstart, andThen_next, encRun_succ_busy _ rfl, hmove, andThen_next, encRun_idle _ rfl]

/-- Settles O43: the command ends with `wp` and the output space as its start left them, 0 and unwritten. -/
theorem emptyInputEmptyOutput : Obligations.EmptyInputEmptyOutput := by
  intro s hb hn hsz
  have hexec : exec .compress s = .next { s with enc := encFinish (encBegin s.enc) } :=
    onEnc_eq_next.2 ⟨_, encCompress_of_empty hb hn hsz, rfl⟩
  exact ⟨_, hexec, rfl, rfl, Memory.alloc_holds _⟩

end Sys2Proof.Machine
end

section
/-! PROOFS. The faults of `DEC` (R210 to R214, R217): when each check of a stream block fails, and a step that lacks input. -/

namespace Sys2Proof.Machine

open Sys2Proof

/-! ### `raise` in the machine -/

/-- `raise` in `DEC` (R214) leaves the machine faulted, whatever the move has written of cursors, temporaries and output. -/
theorem decRaise_faulted (c : Cause) {s : State} {d : Dec} (hm : d.m = s.dec.m) (hl : d.l = s.dec.l)
    (hinp : d.inp = s.dec.inp) : DecFaulted (faultCodeOf c) s { s with dec := decRaise c d } :=
  ⟨⟨rfl, rfl, rfl, rfl⟩, rfl, rfl, rfl, rfl, Memory.alloc_holds _, hm, hl, hinp⟩

/-! ### The checks of the stream blocks -/

theorem decTake_exhausted {k : Nat} {d : Dec} {next : Dec → Result Dec} (h : d.m < d.ip + k) :
    decTake k d next = .next (decRaise .decInputExhausted d) :=
  if_pos h

theorem decTake_of_input {k : Nat} {d : Dec} {next : Dec → Result Dec} (h : d.ip + k ≤ d.m) :
    decTake k d next = next { d with ip := d.ip + k } :=
  if_neg (Nat.not_lt.2 h)

/-- `LITERAL` past `L`, its input there (R182, R213). -/
theorem decLiteral_destRange {payload : List Byte} {d : Dec} (hin : d.ip + (1 + payload.length) ≤ d.m)
    (hdst : d.l < d.dst + payload.length) :
    decLiteral payload d = .next (decRaise .decLiteralDestRange { d with ip := d.ip + (1 + payload.length) }) :=
  (decTake_of_input hin).trans (if_pos hdst)

theorem decCopy_exhausted {size : Nat} {word : Word} {count : BitVec 11} {offset : BitVec 12} {d : Dec}
    (h : d.m < d.ip + size) : decCopy size word count offset d = .next (decRaise .decInputExhausted d) :=
  decTake_exhausted h

/-- A copy whose input is there is `COPY_BYTES` on its operands (R183, R184). -/
theorem decCopy_of_input {size : Nat} {word : Word} {count : BitVec 11} {offset : BitVec 12} {d : Dec}
    (h : d.ip + size ≤ d.m) :
    decCopy size word count offset d =
      decCopyBytes offset.toNat (copyLength count) (decOperands size word count offset d) :=
  decTake_of_input h

/-- A copy from no offset or from before the output's first byte (R185, R212). -/
theorem decCopyBytes_sourceRange {off len : Nat} {d : Dec} (h : off < 1 ∨ d.dst < off) :
    decCopyBytes off len d = .next (decRaise .decCopySourceRange d) :=
  if_pos h

/-- A copy past `L`, its source inside the output (R185, R213). -/
theorem decCopyBytes_destRange {off len : Nat} {d : Dec} (hlo : 1 ≤ off) (hhi : off ≤ d.dst) (hdst : d.l < d.dst + len) :
    decCopyBytes off len d = .next (decRaise .decCopyDestRange d) :=
  (if_neg (by omega)).trans (if_pos hdst)

/-- A stream block that is not wholly inside the input faults before anything else of it is looked at (R211, R217). -/
theorem exec_block_exhausted {s : State} {i : Instr}
    (hslot : i.slot = some .control ∨ i.slot = some .literalBody ∨ i.slot = some .copyBody)
    (hin : s.dec.m < s.dec.ip + i.size) : exec i s = .next { s with dec := decRaise .decInputExhausted s.dec } := by
  cases i with
  | ctrl tags => exact onDec_eq_next.2 ⟨_, decTake_exhausted hin, rfl⟩
  | literal payload => exact onDec_eq_next.2 ⟨_, decTake_exhausted hin, rfl⟩
  | copyShort offset c => exact onDec_eq_next.2 ⟨_, decCopy_exhausted hin, rfl⟩
  | copyLong offset h ext => exact onDec_eq_next.2 ⟨_, decCopy_exhausted hin, rfl⟩
  | _ => simp [Instr.slot] at hslot

/-- Either form of a copy, its input there, is `COPY_BYTES` of the offset and length it encodes (R96). -/
theorem exec_copy_of_input {s : State} {i : Instr} {off len : Nat} (hops : copyOperands i = some (off, len))
    (hin : s.dec.ip + i.size ≤ s.dec.m) :
    ∃ size word count offset,
      exec i s = onDec (decCopyBytes off len (decOperands size word count offset s.dec)) s := by
  cases i with
  | copyShort offset c =>
    cases hops
    exact ⟨_, _, _, _, congrArg (onDec · s) (decCopy_of_input hin)⟩
  | copyLong offset h ext =>
    cases hops
    exact ⟨_, _, _, _, congrArg (onDec · s) (decCopy_of_input hin)⟩
  | _ => simp [copyOperands] at hops

/-- Settles O14: each check that fails is reached because the checks before it pass, and what it does is `raise`. -/
theorem blockFaultsInOrder : Obligations.BlockFaultsInOrder := by
  refine ⟨fun s i hslot hin => ?input, fun s i off len hops hin => ?copy, fun s payload hin hdst => ?literal⟩
  case input => exact ⟨_, exec_block_exhausted hslot hin, decRaise_faulted .decInputExhausted rfl rfl rfl⟩
  case copy =>
    obtain ⟨size, word, count, offset, hexec⟩ := exec_copy_of_input hops hin
    refine ⟨fun hsrc => ?_, fun hlo hhi hdst => ?_⟩
    · exact ⟨_, hexec.trans (onDec_eq_next.2 ⟨_, decCopyBytes_sourceRange (hsrc.imp_left Nat.lt_one_iff.2), rfl⟩),
        decRaise_faulted .decCopySourceRange rfl rfl rfl⟩
    · exact ⟨_, hexec.trans (onDec_eq_next.2 ⟨_, decCopyBytes_destRange hlo hhi hdst, rfl⟩),
        decRaise_faulted .decCopyDestRange rfl rfl rfl⟩
  case literal =>
    exact ⟨_, onDec_eq_next.2 ⟨_, decLiteral_destRange hin hdst, rfl⟩, decRaise_faulted .decLiteralDestRange rfl rfl rfl⟩

/-! ### The fetch -/

/-- A filled space is streamed to its end. -/
theorem Memory.stream_length_of_filled {m : Memory} {k a : Nat} (hfill : m.Filled k) (ha : a ≤ k) :
    (m.stream (k - a) a).length = k - a := by
  refine Nat.le_antisymm (m.stream_spec (k - a) a).1 (Nat.le_of_not_lt fun hshort => ?_)
  have hstop := m.stream_stops (k - a) a hshort
  rw [hfill _ (by omega)] at hstop
  exact Bool.noConfusion hstop

/-- Bytes of a filled input that do not decode are missing bytes (R98, R211). -/
theorem decFetchAt_exhausted {p : Params} {slot : Slot} {d : Dec} {why : DecodeError} (hfill : d.inp.Filled d.m)
    (hip : d.ip ≤ d.m) (h : decode p slot (d.inp.stream (d.m - d.ip) d.ip) = .error why) :
    decFetchAt p slot d = .exhausted := by
  have hlen := Memory.stream_length_of_filled hfill hip
  simp only [decFetchAt, h]
  exact if_pos (by omega)

/-- At the loop test with output to produce, the tag register is shifted and the item it calls for fetched (R180, R186). -/
theorem decFetch_of_loop {p : Params} {d : Dec} (hph : d.phase = .loop) (hdst : d.dst < d.l) :
    decFetch p d =
      decFetchAt p (if ctrlShift d.ctrl = 1 then .control else bodySlot (ctrlTag (ctrlShift d.ctrl)))
        { d with ctrl := ctrlShift d.ctrl } := by
  simp [decFetch, hph, hdst, ctrlEmpty]

/-- After a control byte the body its first tag selects is fetched, with no further shift (R180, R186). -/
theorem decFetch_of_body {p : Params} {d : Dec} (hph : d.phase = .body) :
    decFetch p d = decFetchAt p (bodySlot (ctrlTag d.ctrl)) d := by
  simp [decFetch, hph]

/-! ### The step -/

/-- What an engine meets in its turn is the state but for the host's list (log 6). -/
theorem turnOf_eq_withHost {e : Engine} {s t : State} (h : TurnOf e s t) : ∃ ops, t = { s with host := ops } := by
  obtain ⟨-, ht⟩ | ⟨-, rfl, -⟩ := h
  · exact ⟨_, ht⟩
  · exact ⟨_, rfl⟩

theorem decTurn_of_exhausted {s : State} (h : decFetch s.params s.dec = .exhausted) :
    decTurn s = .next { s with dec := decRaise .decInputExhausted s.dec } := by
  simp [decTurn, h]

/-- Settles O15: in both phases the item that is due is fetched as exhausted, and the turn raises that cause. -/
theorem missingInputFaults : Obligations.MissingInputFaults := by
  intro s t why hbusy hturn hfill hip c bytes hmissing
  have hfetch : decFetch s.params s.dec = .exhausted := by
    obtain ⟨hph, hdst, hdecode⟩ | ⟨hph, hdecode⟩ := hmissing
    · rw [decFetch_of_loop hph hdst]
      exact decFetchAt_exhausted hfill hip hdecode
    · rw [decFetch_of_body hph]
      exact decFetchAt_exhausted hfill hip hdecode
  obtain ⟨ops, rfl⟩ := turnOf_eq_withHost hturn
  have hstep : step s = decTurn { s with host := ops } := (step_of_turn hturn hbusy).trans (if_pos hbusy)
  exact ⟨_, hstep.trans (decTurn_of_exhausted hfetch), decRaise_faulted .decInputExhausted rfl rfl rfl⟩

end Sys2Proof.Machine
end
